-- ==== Sys2Proof/Word.lean ====
section
/-! DEFINITION. The word types of the machine (00_scope.md R5, R7). -/

namespace Sys2Proof

/-- An 8-bit cell of memory, a general register or a timer (10_state.md R21, R28, R31). -/
abbrev Byte := BitVec 8

/-- A 16-bit quantity: an instruction word, `I`, `pc`, a stack entry (R24, R27, R30, R90). -/
abbrev Word := BitVec 16

/-- The index of a general register, 0 to 15: `x` or `y` of an instruction (R21, R93). -/
abbrev Reg := Fin 16

/-- The keyboard vector: bit k is `keys[k]`, 1 when key k is pressed (R32). -/
abbrev KeyVector := BitVec 16

/-- The framebuffer: bit j is `fb[j]`, the pixel (px, py) with j = py*64 + px (R33). -/
abbrev Framebuffer := BitVec 2048

/-- The glyph table: 16 glyphs of 5 bytes, digit 0 first (R29). -/
abbrev Font := Vector Byte 80

end Sys2Proof
end

