-- ==== Sys2Proof/Config.lean ====
section
/-! DEFINITION. The fixed parameters of the machine (00_scope.md R5, R6) and its one free value.

Two parameters of R6 are arguments of the model and stand where it takes them: FONT, an argument of
`Machine.State.resetWith`, `Machine.hostReset` and `Machine.transition`, with its default
`Machine.defaultFont` in Machine/Ops.lean; and STEPS_PER_TICK, an argument of `Machine.clockTick`
(60_exceptions.md R217). -/

namespace Sys2Proof.Config

/-- MEM_SIZE: addresses 0x000 to 0xFFF exist (R5, 20_memory.md R60). -/
@[simp] abbrev memSize : Nat := 4096

/-- LOAD_BASE, where LoadProgram puts the first program byte (R5). -/
@[simp] abbrev loadBase : Nat := 0x200

/-- FONT_BASE, the address of the glyph table (R5). -/
@[simp] abbrev fontBase : Nat := 0x050

/-- FONT_LEN, the bytes of the glyph table (R6). -/
@[simp] abbrev fontLen : Nat := 80

/-- PC_RESET (R6, 10_state.md R24). -/
@[simp] abbrev pcReset : Word := 0x200

/-- GLYPH_BYTES, the bytes of one glyph (R5). -/
@[simp] abbrev glyphBytes : Nat := 5

/-- FB_W (R6). -/
@[simp] abbrev fbWidth : Nat := 64

/-- FB_H (R6). -/
@[simp] abbrev fbHeight : Nat := 32

/-- The free byte r of the k-th random draw (10_state.md R41, 41_alu.md R152): any byte, fresh at
every execution of RND, under no law. It has no body, so nothing can be proved of its value.
DESIGN CHOICE in form, safe: notes/assumptions/1.md. -/
opaque freeByte : Nat → Byte

end Sys2Proof.Config
end

