-- ==== Sys2Proof/Syntax.lean ====
section
/-! DEFINITION. The instruction set: one constructor per row of spec/opcode_table.json
(30_encoding.md R96, R101), carrying the fields the row names. -/

namespace Sys2Proof

/-- The 34 instructions. `x`, `y` are register indices; `nn` is an 8-bit immediate; `nnn` is a
byte address and `n` a count of sprite rows, both natural numbers whose bounds `Instr.wellFormed`
checks (R93). `shr` and `shl` carry the `y` field their format has, though it changes nothing
(R100); `seReg` and `sneReg` do not carry `n`, which the decoder does not examine (R98). -/
inductive Instr where
  /-- 00E0 CLS, R170 -/
  | cls
  /-- 00EE RET, R120 -/
  | ret
  /-- 1nnn JP nnn, R121 -/
  | jp (nnn : Nat)
  /-- 2nnn CALL nnn, R122 -/
  | call (nnn : Nat)
  /-- 3xkk SE Vx, nn, R123 -/
  | seImm (x : Reg) (nn : Byte)
  /-- 4xkk SNE Vx, nn, R124 -/
  | sneImm (x : Reg) (nn : Byte)
  /-- 5xy0 SE Vx, Vy, R125 -/
  | seReg (x y : Reg)
  /-- 6xkk LD Vx, nn, R140 -/
  | ldImm (x : Reg) (nn : Byte)
  /-- 7xkk ADD Vx, nn, R141 -/
  | addImm (x : Reg) (nn : Byte)
  /-- 8xy0 LD Vx, Vy, R142 -/
  | ldReg (x y : Reg)
  /-- 8xy1 OR Vx, Vy, R143 -/
  | orReg (x y : Reg)
  /-- 8xy2 AND Vx, Vy, R144 -/
  | andReg (x y : Reg)
  /-- 8xy3 XOR Vx, Vy, R145 -/
  | xorReg (x y : Reg)
  /-- 8xy4 ADD Vx, Vy, R147 -/
  | addReg (x y : Reg)
  /-- 8xy5 SUB Vx, Vy, R148 -/
  | sub (x y : Reg)
  /-- 8xy6 SHR Vx, R149 -/
  | shr (x y : Reg)
  /-- 8xy7 SUBN Vx, Vy, R150 -/
  | subn (x y : Reg)
  /-- 8xyE SHL Vx, R151 -/
  | shl (x y : Reg)
  /-- 9xy0 SNE Vx, Vy, R126 -/
  | sneReg (x y : Reg)
  /-- Annn LD I, nnn, R160 -/
  | ldI (nnn : Nat)
  /-- Bnnn JP V0, nnn, R127 -/
  | jpV0 (nnn : Nat)
  /-- Cxkk RND Vx, nn, R152 -/
  | rnd (x : Reg) (nn : Byte)
  /-- Dxyn DRW Vx, Vy, n, R172 -/
  | drw (x y : Reg) (n : Nat)
  /-- Ex9E SKP Vx, R180 -/
  | skp (x : Reg)
  /-- ExA1 SKNP Vx, R181 -/
  | sknp (x : Reg)
  /-- Fx07 LD Vx, DT, R183 -/
  | ldVxDT (x : Reg)
  /-- Fx0A LD Vx, K, R182 -/
  | ldVxK (x : Reg)
  /-- Fx15 LD DT, Vx, R184 -/
  | ldDTVx (x : Reg)
  /-- Fx18 LD ST, Vx, R185 -/
  | ldSTVx (x : Reg)
  /-- Fx1E ADD I, Vx, R161 -/
  | addI (x : Reg)
  /-- Fx29 LD F, Vx, R162 -/
  | ldF (x : Reg)
  /-- Fx33 LD B, Vx, R163 -/
  | ldB (x : Reg)
  /-- Fx55 LD [I], Vx, R164 -/
  | storeRegs (x : Reg)
  /-- Fx65 LD Vx, [I], R165 -/
  | loadRegs (x : Reg)
  deriving DecidableEq, Repr

end Sys2Proof
end

