-- ==== Sys2Proof/WellFormed.lean ====
section
/-! DEFINITION. The bounds of the operand fields that the types do not already give. -/

namespace Sys2Proof

/-- `nnn` is a 12-bit address and the row count `n` of DRW has 4 bits (30_encoding.md R91, R93);
the other fields are bounded by their types. -/
def Instr.wellFormed : Instr → Bool
  | .jp nnn | .call nnn | .ldI nnn | .jpV0 nnn => decide (nnn < 4096)
  | .drw _ _ n => decide (n < 16)
  | .cls | .ret => true
  | .seImm _ _ | .sneImm _ _ | .ldImm _ _ | .addImm _ _ | .rnd _ _ => true
  | .seReg _ _ | .sneReg _ _ | .ldReg _ _ | .orReg _ _ | .andReg _ _ | .xorReg _ _ => true
  | .addReg _ _ | .sub _ _ | .shr _ _ | .subn _ _ | .shl _ _ => true
  | .skp _ | .sknp _ | .ldVxDT _ | .ldVxK _ | .ldDTVx _ | .ldSTVx _ => true
  | .addI _ | .ldF _ | .ldB _ | .storeRegs _ | .loadRegs _ => true

end Sys2Proof
end

