-- ==== Sys2Proof/Decode.lean ====
section
/-! DEFINITION. The decoder (30_encoding.md R90 to R99) and the encoder written from the same
table (R96). -/

namespace Sys2Proof

/-- Why no instruction is read: the four rows of R99's table of illegal words, and bytes too few
for a word. -/
inductive DecodeError where
  /-- family 0x0, neither 00E0 nor 00EE -/
  | illegalFamily0
  /-- family 0x8 with a sub-selector n of no row -/
  | illegalFamily8
  /-- family 0xE with a sub-selector nn of no row -/
  | illegalFamilyE
  /-- family 0xF with a sub-selector nn of no row -/
  | illegalFamilyF
  /-- fewer than two bytes: no word at all (R90) -/
  | truncated
  deriving DecidableEq, Repr

/-! The fields of a word (R91). -/

/-- `op`, bits 15 to 12. -/
def opField (w : Word) : Fin 16 := ⟨w.toNat / 4096, by have := w.isLt; omega⟩

/-- `x`, bits 11 to 8. -/
def xField (w : Word) : Reg := ⟨w.toNat / 256 % 16, by omega⟩

/-- `y`, bits 7 to 4. -/
def yField (w : Word) : Reg := ⟨w.toNat / 16 % 16, by omega⟩

/-- `n`, bits 3 to 0. -/
def nField (w : Word) : Nat := w.toNat % 16

/-- `nn`, bits 7 to 0. -/
def nnField (w : Word) : Byte := BitVec.ofNat 8 (w.toNat % 256)

/-- `nnn`, bits 11 to 0. -/
def nnnField (w : Word) : Nat := w.toNat % 4096

/-- Second dispatch of family 0x0, on the low 12 bits (R97). -/
def decodeFamily0 (nnn : Nat) : Except DecodeError Instr :=
  match nnn with
  | 0x0E0 => .ok .cls
  | 0x0EE => .ok .ret
  | _ => .error .illegalFamily0

/-- Second dispatch of family 0x8, on `n` (R97). -/
def decodeFamily8 (x y : Reg) (n : Nat) : Except DecodeError Instr :=
  match n with
  | 0x0 => .ok (.ldReg x y)
  | 0x1 => .ok (.orReg x y)
  | 0x2 => .ok (.andReg x y)
  | 0x3 => .ok (.xorReg x y)
  | 0x4 => .ok (.addReg x y)
  | 0x5 => .ok (.sub x y)
  | 0x6 => .ok (.shr x y)
  | 0x7 => .ok (.subn x y)
  | 0xE => .ok (.shl x y)
  | _ => .error .illegalFamily8

/-- Second dispatch of family 0xE, on `nn` (R97). -/
def decodeFamilyE (x : Reg) (nn : Nat) : Except DecodeError Instr :=
  match nn with
  | 0x9E => .ok (.skp x)
  | 0xA1 => .ok (.sknp x)
  | _ => .error .illegalFamilyE

/-- Second dispatch of family 0xF, on `nn` (R97). -/
def decodeFamilyF (x : Reg) (nn : Nat) : Except DecodeError Instr :=
  match nn with
  | 0x07 => .ok (.ldVxDT x)
  | 0x0A => .ok (.ldVxK x)
  | 0x15 => .ok (.ldDTVx x)
  | 0x18 => .ok (.ldSTVx x)
  | 0x1E => .ok (.addI x)
  | 0x29 => .ok (.ldF x)
  | 0x33 => .ok (.ldB x)
  | 0x55 => .ok (.storeRegs x)
  | 0x65 => .ok (.loadRegs x)
  | _ => .error .illegalFamilyF

/-- The decode function, total on all 65536 words (R95). -/
def decode (w : Word) : Except DecodeError Instr :=
  match opField w with
  | 0x0 => decodeFamily0 (nnnField w)
  | 0x1 => .ok (.jp (nnnField w))
  | 0x2 => .ok (.call (nnnField w))
  | 0x3 => .ok (.seImm (xField w) (nnField w))
  | 0x4 => .ok (.sneImm (xField w) (nnField w))
  | 0x5 => .ok (.seReg (xField w) (yField w))
  | 0x6 => .ok (.ldImm (xField w) (nnField w))
  | 0x7 => .ok (.addImm (xField w) (nnField w))
  | 0x8 => decodeFamily8 (xField w) (yField w) (nField w)
  | 0x9 => .ok (.sneReg (xField w) (yField w))
  | 0xA => .ok (.ldI (nnnField w))
  | 0xB => .ok (.jpV0 (nnnField w))
  | 0xC => .ok (.rnd (xField w) (nnField w))
  | 0xD => .ok (.drw (xField w) (yField w) (nField w))
  | 0xE => decodeFamilyE (xField w) (nnField w).toNat
  | 0xF => decodeFamilyF (xField w) (nnField w).toNat
  | ⟨n + 16, h⟩ => absurd h (by omega)

/-- Two bytes as the instruction word they make: the first is bits 15 to 8 (20_memory.md R63). -/
def wordOfBytes (hi lo : Byte) : Word := BitVec.ofNat 16 (hi.toNat * 256 + lo.toNat)

/-- The two bytes of a word, the first at the lower address (R63). -/
def bytesOfWord (w : Word) : Byte × Byte :=
  (BitVec.ofNat 8 (w.toNat / 256), BitVec.ofNat 8 (w.toNat % 256))

/-- The instruction at the head of a list of bytes, and the bytes after it (R90: always two). -/
def decodeBytes : List Byte → Except DecodeError (Instr × List Byte)
  | hi :: lo :: rest => (decode (wordOfBytes hi lo)).map fun i => (i, rest)
  | _ => .error .truncated

/-! The encoder. -/

/-- The word of formats A and Z: family and 12-bit address (R92). -/
def wordA (op nnn : Nat) : Word := BitVec.ofNat 16 (op * 4096 + nnn % 4096)

/-- The word of formats XK and XS: family, register and 8 low bits (R92). -/
def wordXK (op : Nat) (x : Reg) (nn : Byte) : Word :=
  BitVec.ofNat 16 (op * 4096 + x.val * 256 + nn.toNat)

/-- The word of formats XY and XYN: family, two registers and 4 low bits (R92). -/
def wordXY (op : Nat) (x y : Reg) (n : Nat) : Word :=
  BitVec.ofNat 16 (op * 4096 + x.val * 256 + y.val * 16 + n % 16)

/-- The word of an instruction (R96); for SE Vx, Vy and SNE Vx, Vy the canonical one, with n = 0
(R98). -/
def encode : Instr → Word
  | .cls => wordA 0x0 0x0E0
  | .ret => wordA 0x0 0x0EE
  | .jp nnn => wordA 0x1 nnn
  | .call nnn => wordA 0x2 nnn
  | .seImm x nn => wordXK 0x3 x nn
  | .sneImm x nn => wordXK 0x4 x nn
  | .seReg x y => wordXY 0x5 x y 0x0
  | .ldImm x nn => wordXK 0x6 x nn
  | .addImm x nn => wordXK 0x7 x nn
  | .ldReg x y => wordXY 0x8 x y 0x0
  | .orReg x y => wordXY 0x8 x y 0x1
  | .andReg x y => wordXY 0x8 x y 0x2
  | .xorReg x y => wordXY 0x8 x y 0x3
  | .addReg x y => wordXY 0x8 x y 0x4
  | .sub x y => wordXY 0x8 x y 0x5
  | .shr x y => wordXY 0x8 x y 0x6
  | .subn x y => wordXY 0x8 x y 0x7
  | .shl x y => wordXY 0x8 x y 0xE
  | .sneReg x y => wordXY 0x9 x y 0x0
  | .ldI nnn => wordA 0xA nnn
  | .jpV0 nnn => wordA 0xB nnn
  | .rnd x nn => wordXK 0xC x nn
  | .drw x y n => wordXY 0xD x y n
  | .skp x => wordXK 0xE x 0x9E
  | .sknp x => wordXK 0xE x 0xA1
  | .ldVxDT x => wordXK 0xF x 0x07
  | .ldVxK x => wordXK 0xF x 0x0A
  | .ldDTVx x => wordXK 0xF x 0x15
  | .ldSTVx x => wordXK 0xF x 0x18
  | .addI x => wordXK 0xF x 0x1E
  | .ldF x => wordXK 0xF x 0x29
  | .ldB x => wordXK 0xF x 0x33
  | .storeRegs x => wordXK 0xF x 0x55
  | .loadRegs x => wordXK 0xF x 0x65

/-- The bytes of an instruction, in memory order (R63). -/
def encodeBytes (i : Instr) : List Byte := [(bytesOfWord (encode i)).1, (bytesOfWord (encode i)).2]

/-- What the decoder reads from an instruction whose bits are `w`, numbered as
spec/opcode_table.json numbers them; bits at and above `nbits` are 0. -/
def decodeTableWord (nbits w : Nat) : Option Instr :=
  let b := bytesOfWord (BitVec.ofNat 16 (w % 2 ^ nbits))
  match decodeBytes [b.1, b.2] with
  | .ok (i, _) => some i
  | .error _ => none

end Sys2Proof
end

