-- ==== Sys2Proof/Machine/State.lean ====
section
/-! DEFINITION. The machine's state, the reasons a step can stop, and the state after reset
(10_state.md R20, R39). -/

namespace Sys2Proof.Machine

/-- `mem` (R28) as the list of the cells that differ from their reset contents, addresses strictly
rising: the canonical form `Memory.wf` of Machine/Ops.lean. -/
abbrev Memory := List Host.Cell

/-- The five kinds of machine fault (60_exceptions.md R201 to R205). -/
inductive FaultKind where
  /-- the fetched word is illegal (R201) -/
  | decodeFault
  /-- call-stack overflow or underflow (R202) -/
  | stackFault
  /-- the program does not fit at load time (R203) -/
  | loadFault
  /-- an access to `mem` above 0xFFF (R204) -/
  | memoryFault
  /-- a key index above 15 (R205) -/
  | keyIndexFault
  deriving DecidableEq, Repr

/-- The fault record (R35, R206). `code` names the same thing as `kind`: `FaultKind.code`. -/
structure FaultRecord where
  kind : FaultKind
  sub : Option Nat
  pc : Word
  word : Option Word
  info : Option Nat
  deriving DecidableEq, Repr

/-- The whole state of the machine (R20), and one field of the model's own, `draws`. -/
structure State where
  /-- `mem`, 4096 cells of 8 bits (R28) -/
  mem : Memory
  /-- `V[0..15]`; `VF` is `V[15]` (R21, R22) -/
  v : Vector Byte 16
  /-- `I`, the index register (R27) -/
  idx : Word
  /-- `pc` (R24) -/
  pc : Word
  /-- `stack[0..15]` (R30) -/
  stack : Vector Word 16
  /-- `sp`, the depth counter, 0 to 16 (R30) -/
  sp : Fin 17
  /-- `DT`, the delay timer (R31) -/
  dt : Byte
  /-- `ST`, the sound timer (R31) -/
  st : Byte
  /-- `keys[0..15]` (R32) -/
  keys : KeyVector
  /-- `fb[0..2047]` (R33) -/
  fb : Framebuffer
  /-- `redraw` (R34) -/
  redraw : Bool
  /-- `fault`; the machine is halted when it is not `none` (R35, R42) -/
  fault : Option FaultRecord
  /-- THE MODEL'S OWN: how many free bytes RND has drawn, the argument of `Config.freeByte` for the
  next one (notes/assumptions/1.md). -/
  draws : Nat
  deriving DecidableEq, Repr

/-- Why a transition has no next state. A machine fault of R200 is none of these: raising one is a
next state whose fault record is set (R207, notes/assumptions/6.md). -/
inductive Fault where
  /-- Raised by `step` and `timerTick` of a machine whose fault record is set: no Step and no
  TimerTick is enabled (R42). Safe: the machine does not go on either. -/
  | halted
  deriving DecidableEq, Repr

/-- Why the model declines an instruction. No arm of `exec` does. -/
inductive Refusal where
  /-- Would be raised by an arm of `exec` without a meaning. Safe: no claim about it holds. -/
  | notModelled (mnemonic : String)
  deriving DecidableEq, Repr

/-- The machine right after Reset (R39, 70_reset_and_hazards.md R240), with the parameter FONT at its
default; `State.resetWith` of Machine/Ops.lean is the same for any FONT. -/
def State.reset : State where
  mem := []
  v := Vector.replicate 16 0
  idx := 0
  pc := Config.pcReset
  stack := Vector.replicate 16 0
  sp := 0
  dt := 0
  st := 0
  keys := 0
  fb := 0
  redraw := false
  fault := none
  draws := 0

end Sys2Proof.Machine
end

