-- ==== Sys2Proof/Machine/Ops.lean ====
section
/-! DEFINITION. The named operations over memory, registers, program counter and call stack, and
raising a fault (00_scope.md R8, 20_memory.md, 10_state.md, 60_exceptions.md R207). -/

namespace Sys2Proof.Machine

/-! ## Memory -/

/-- The bytes of FONT's default: 16 glyphs of 5 bytes (10_state.md R29; notes/assumptions/5.md). -/
def Memory.font : List Byte :=
  [0xF0, 0x90, 0x90, 0x90, 0xF0,   0x20, 0x60, 0x20, 0x20, 0x70] ++
  [0xF0, 0x10, 0xF0, 0x80, 0xF0,   0xF0, 0x10, 0xF0, 0x10, 0xF0] ++
  [0x90, 0x90, 0xF0, 0x10, 0x10,   0xF0, 0x80, 0xF0, 0x10, 0xF0] ++
  [0xF0, 0x80, 0xF0, 0x90, 0xF0,   0xF0, 0x10, 0x20, 0x40, 0x40] ++
  [0xF0, 0x90, 0xF0, 0x90, 0xF0,   0xF0, 0x90, 0xF0, 0x10, 0xF0] ++
  [0xF0, 0x90, 0xF0, 0x90, 0x90,   0xE0, 0x90, 0xE0, 0x90, 0xE0] ++
  [0xF0, 0x80, 0x80, 0x80, 0xF0,   0xE0, 0x90, 0x90, 0x90, 0xE0] ++
  [0xF0, 0x80, 0xF0, 0x80, 0xF0,   0xF0, 0x80, 0xF0, 0x80, 0x80]

/-- The default of the parameter FONT (00_scope.md R6, 10_state.md R29). -/
def defaultFont : Font := ⟨⟨Memory.font⟩, rfl⟩

/-- What an unlisted address reads as: its reset contents when FONT is the default, the glyph table at
0x050 and 0 elsewhere (R28, R39; notes/assumptions/4.md). Another FONT is listed where it differs:
`Memory.ofFont`. -/
def Memory.initial (a : Nat) : Byte :=
  if Config.fontBase ≤ a then Memory.font.getD (a - Config.fontBase) 0 else 0

/-- The byte `mem[a]`. -/
def Memory.get : Memory → Nat → Byte
  | [], a => Memory.initial a
  | (k, b) :: rest, a => if k = a then b else Memory.get rest a

/-- `mem[a] <- b`, keeping the canonical form. -/
def Memory.set : Memory → Nat → Byte → Memory
  | [], a, b => if b = Memory.initial a then [] else [(a, b)]
  | (k, c) :: rest, a, b =>
    if a < k then
      if b = Memory.initial a then (k, c) :: rest else (a, b) :: (k, c) :: rest
    else if a = k then
      if b = Memory.initial a then rest else (a, b) :: rest
    else (k, c) :: Memory.set rest a b

/-- The canonical form from address `lo` on: strictly rising addresses that exist, and no entry
equal to what an unlisted address reads as. -/
def Memory.wfFrom : Nat → Memory → Bool
  | _, [] => true
  | lo, (k, b) :: rest =>
    decide (lo ≤ k) && decide (k < Config.memSize) && decide (b ≠ Memory.initial k) &&
      Memory.wfFrom (k + 1) rest

/-- The canonical form. -/
def Memory.wf (m : Memory) : Bool := Memory.wfFrom 0 m

/-- `MemRead(a, 1)`: the byte, or the out-of-range address (00_scope.md R8, 20_memory.md R62). -/
def Memory.read (m : Memory) (a : Nat) : Except Nat Byte :=
  if a < Config.memSize then .ok (m.get a) else .error a

/-- `MemWrite(a, 1, b)`: the memory after it, or the out-of-range address (R8, R62). -/
def Memory.write (m : Memory) (a : Nat) (b : Byte) : Except Nat Memory :=
  if a < Config.memSize then .ok (m.set a b) else .error a

/-- The bytes at `a`, `a+1`, ..., `a+n-1`, read in that order (R66); the first address out of range
otherwise. -/
def Memory.readBlock (m : Memory) (a : Nat) : Nat → Except Nat (List Byte)
  | 0 => .ok []
  | n + 1 =>
    match m.read a with
    | .error e => .error e
    | .ok b =>
      match m.readBlock (a + 1) n with
      | .error e => .error e
      | .ok bs => .ok (b :: bs)

/-- Writes the bytes at `a`, `a+1`, ..., in that order (R66); the first address out of range
otherwise, and then no memory (R68). -/
def Memory.writeBlock (m : Memory) (a : Nat) : List Byte → Except Nat Memory
  | [] => .ok m
  | b :: bs =>
    match m.write a b with
    | .error e => .error e
    | .ok m' => m'.writeBlock (a + 1) bs

/-- `mem[a + i] <- bytes[i]` without a range check: the copy of LoadProgram, whose length is checked
first (60_exceptions.md R220). -/
def Memory.setBlock (m : Memory) (a : Nat) : List Byte → Memory
  | [] => m
  | b :: bs => (m.set a b).setBlock (a + 1) bs

/-- Memory after Reset with the glyph table `font`: `mem[0x050 + i] <- FONT[i]`, 0 elsewhere
(70_reset_and_hazards.md R240). -/
def Memory.ofFont (font : Font) : Memory := Memory.setBlock [] Config.fontBase font.toList

/-- The state right after Reset with the parameter FONT (00_scope.md R6, 10_state.md R39). -/
def State.resetWith (font : Font) : State := { State.reset with mem := Memory.ofFont font }

/-- The fetched word: `MemRead(pc, 1) ++ MemRead(pc + 1, 1)` (20_memory.md R63). -/
def State.fetchWord (s : State) : Except Nat Word :=
  match s.mem.read s.pc.toNat with
  | .error a => .error a
  | .ok hi =>
    match s.mem.read (s.pc.toNat + 1) with
    | .error a => .error a
    | .ok lo => .ok (wordOfBytes hi lo)

/-! ## Registers -/

/-- `V[x]` (R21). -/
def State.reg (s : State) (x : Reg) : Byte := s.v[x.val]

/-- `VF`, the flag register (R22). -/
def flagReg : Reg := 15

/-- `V[x] <- n`, masked to 8 bits (R21). -/
def State.writeV (s : State) (x : Reg) (n : Nat) : State :=
  { s with v := s.v.set x.val (BitVec.ofNat 8 n) }

/-- `V[i] <- bytes[i]` for every i below the length (42_index_memory.md R165). -/
def State.writeFirst (s : State) (bytes : List Byte) : State :=
  { s with v := Vector.ofFn fun r => bytes.getD r.val (s.reg r) }

/-- `V[0]`, ..., `V[x]` in that order (R164). -/
def State.regsUpTo (s : State) (x : Reg) : List Byte := s.v.toList.take (x.val + 1)

/-- `I <- n`, kept to 16 bits and never masked to 12 (R27). -/
def State.writeI (s : State) (n : Nat) : State := { s with idx := BitVec.ofNat 16 n }

/-- `DT <- b` (R31). -/
def State.writeDT (s : State) (b : Byte) : State := { s with dt := b }

/-- `ST <- b` (R31). -/
def State.writeST (s : State) (b : Byte) : State := { s with st := b }

/-- `mem <- m`. -/
def State.withMem (s : State) (m : Memory) : State := { s with mem := m }

/-- `fb <- f; redraw <- 1` (R34). -/
def State.showFrame (s : State) (f : Framebuffer) : State := { s with fb := f, redraw := true }

/-- The next free byte of RND, and the state in which it has been drawn (R41). -/
def State.draw (s : State) : Byte × State :=
  (Config.freeByte s.draws, { s with draws := s.draws + 1 })

/-! ## Program counter -/

/-- `pc <- n`, kept to 16 bits and never masked to 12 (R26). -/
def State.jumpTo (s : State) (n : Nat) : State := { s with pc := BitVec.ofNat 16 n }

/-- `pc <- pc + 2` (R25). -/
def State.advance (s : State) : State := s.jumpTo (s.pc.toNat + 2)

/-- `pc <- pc + 4` when the condition holds, else `pc + 2` (R25). -/
def State.skipIf (s : State) (c : Bool) : State :=
  if c then s.jumpTo (s.pc.toNat + 4) else s.advance

/-! ## Call stack (R30) -/

/-- `stack <- k; sp <- d`. -/
def State.withStack (s : State) (k : Vector Word 16) (d : Fin 17) : State :=
  { s with stack := k, sp := d }

/-- Push, or `none` at depth 16. -/
def State.push (s : State) (n : Nat) : Option State :=
  if h : s.sp.val < 16 then
    some (s.withStack (s.stack.set s.sp.val (BitVec.ofNat 16 n)) ⟨s.sp.val + 1, by omega⟩)
  else none

/-- The popped address and the state after the pop, or `none` at depth 0; the popped slot keeps its
value. -/
def State.pop (s : State) : Option (Word × State) :=
  if h : 0 < s.sp.val then
    some (s.stack[s.sp.val - 1], s.withStack s.stack ⟨s.sp.val - 1, by omega⟩)
  else none

/-! ## Raising a fault (60_exceptions.md R206, R207)

The machine's exception entry: only the fault record changes; `pc` still holds the address of the
faulting instruction, control goes nowhere and the machine is halted. There is no return. -/

/-- The numeric code of a kind (R206). -/
def FaultKind.code : FaultKind → Nat
  | .decodeFault => 1
  | .stackFault => 2
  | .loadFault => 3
  | .memoryFault => 4
  | .keyIndexFault => 5

/-- `raise`: the pre-state with the fault record set. -/
def State.raise (s : State) (kind : FaultKind) (sub : Option Nat) (word : Option Word)
    (info : Option Nat) : State :=
  { s with fault := some { kind := kind, sub := sub, pc := s.pc, word := word, info := info } }

/-- A fetch outside memory (R204, R206). -/
def State.raiseFetch (s : State) (a : Nat) : State := s.raise .memoryFault (some 0) none (some a)

/-- An illegal word (R201, R206). -/
def State.raiseDecode (s : State) (w : Word) : State := s.raise .decodeFault none (some w) none

/-- CALL at depth 16 (R202, R206). -/
def State.raiseOverflow (s : State) (i : Instr) : State :=
  s.raise .stackFault (some 0) (some (encode i)) (some 0)

/-- RET at depth 0 (R202, R206). -/
def State.raiseUnderflow (s : State) (i : Instr) : State :=
  s.raise .stackFault (some 1) (some (encode i)) (some 1)

/-- A data access outside memory (R204, R206). -/
def State.raiseData (s : State) (i : Instr) (a : Nat) : State :=
  s.raise .memoryFault (some 1) (some (encode i)) (some a)

/-- SKP or SKNP of a key above 15 (R205, R206). -/
def State.raiseKeyIndex (s : State) (i : Instr) (k : Nat) : State :=
  s.raise .keyIndexFault none (some (encode i)) (some k)

/-- A program that does not fit (R203, R206). -/
def State.raiseLoad (s : State) (len : Nat) : State := s.raise .loadFault none none (some len)

end Sys2Proof.Machine
end

