-- ==== Sys2Proof/Machine/Operands.lean ====
section
/-! DEFINITION. The operand forms beyond a plain register or immediate: the data address in `I`,
glyph addresses, decimal digits, key indices and sprite cells. -/

namespace Sys2Proof.Machine

/-- The address of the first cell an instruction accesses through `I`; the others follow it upwards
(20_memory.md R66, 42_index_memory.md R166). -/
def State.dataAddress (s : State) : Nat := s.idx.toNat

/-- The address of the glyph of digit `d`, all 8 bits of it used (R162). -/
def glyphAddress (d : Byte) : Nat := Config.fontBase + Config.glyphBytes * d.toNat

/-- Hundreds, tens and ones of a byte, one digit a cell (R163). -/
def bcdDigits (b : Byte) : List Byte :=
  [BitVec.ofNat 8 (b.toNat / 100), BitVec.ofNat 8 (b.toNat / 10 % 10), BitVec.ofNat 8 (b.toNat % 10)]

/-- `keys[k]` (10_state.md R32). -/
def State.keyPressed (s : State) (k : Nat) : Bool := s.keys.getLsbD k

/-- The least pressed key, scanning from index 0 upward (44_keyboard_timers.md R182). -/
def State.leastKey (s : State) : Option Nat := (List.range 16).find? fun k => s.keyPressed k

/-- The cell of pixel (px, py) (10_state.md R33). -/
def pixelCell (px py : Nat) : Nat := py * Config.fbWidth + px

/-- `fb` at pixel (px, py) (R33). -/
def State.pixel (s : State) (px py : Nat) : Bool := s.fb.getLsbD (pixelCell px py)

/-- Whether column `col` of a sprite row is set: the leftmost pixel is bit 7 (43_display.md R171). -/
def spriteBit (row : Byte) (col : Nat) : Bool := row.getLsbD (7 - col)

/-- The cells that one sprite row toggles, left to right: both coordinates wrap on their own
(R172). -/
def rowCells (x0 y : Nat) (row : Byte) : List Nat :=
  ((List.range 8).filter fun col => spriteBit row col).map fun col =>
    pixelCell ((x0 + col) % Config.fbWidth) (y % Config.fbHeight)

/-- The cells that a sprite with these rows toggles, top row first (R172). -/
def spriteCells (x0 : Nat) : Nat → List Byte → List Nat
  | _, [] => []
  | y, row :: rows => rowCells x0 y row ++ spriteCells x0 (y + 1) rows

end Sys2Proof.Machine
end

