-- ==== Sys2Proof/Machine/Flags.lean ====
section
/-! DEFINITION. Every value the machine writes to the flag register as a side effect (10_state.md
R22), and the template that writes it (41_alu.md R146). -/

namespace Sys2Proof.Machine

/-- Carry of an addition (R147). -/
def carryFlag (a b : Byte) : Nat := if a.toNat + b.toNat > 255 then 1 else 0

/-- Not-borrow of `a - b` (R148, R150). -/
def notBorrowFlag (a b : Byte) : Nat := if a.toNat ≥ b.toNat then 1 else 0

/-- The bit a right shift shifts out (R149). -/
def lowBitFlag (a : Byte) : Nat := a.toNat % 2

/-- The bit a left shift shifts out (R151). -/
def highBitFlag (a : Byte) : Nat := a.toNat / 128

/-- Collision: VF is 1 when a destination pixel was already set (43_display.md R172). -/
def collisionFlag (c : Bool) : Nat := if c then 1 else 0

/-- The result, then the flag, then `pc + 2` (R146): with x = 15 the flag is what VF holds
afterwards. -/
def State.writeResultFlag (s : State) (x : Reg) (r f : Nat) : State :=
  ((s.writeV x r).writeV flagReg f).advance

end Sys2Proof.Machine
end

