-- ==== Sys2Proof/Machine/Alu.lean ====
section
/-! DEFINITION. The register, arithmetic and logic instructions (41_alu.md R140 to R153). Operands
are read from the pre-state (00_scope.md R8), computed as natural numbers and masked by the write
(R21). -/

namespace Sys2Proof.Machine

/-- LD Vx, nn (R140). -/
def execLdImm (x : Reg) (nn : Byte) (s : State) : Host.Outcome State Fault Refusal :=
  .next (s.writeV x nn.toNat).advance

/-- ADD Vx, nn (R141): no flag. -/
def execAddImm (x : Reg) (nn : Byte) (s : State) : Host.Outcome State Fault Refusal :=
  .next (s.writeV x ((s.reg x).toNat + nn.toNat)).advance

/-- LD Vx, Vy (R142). -/
def execLdReg (x y : Reg) (s : State) : Host.Outcome State Fault Refusal :=
  .next (s.writeV x (s.reg y).toNat).advance

/-- OR Vx, Vy (R143): VF is not touched. -/
def execOrReg (x y : Reg) (s : State) : Host.Outcome State Fault Refusal :=
  .next (s.writeV x ((s.reg x).toNat ||| (s.reg y).toNat)).advance

/-- AND Vx, Vy (R144): VF is not touched. -/
def execAndReg (x y : Reg) (s : State) : Host.Outcome State Fault Refusal :=
  .next (s.writeV x ((s.reg x).toNat &&& (s.reg y).toNat)).advance

/-- XOR Vx, Vy (R145): VF is not touched. -/
def execXorReg (x y : Reg) (s : State) : Host.Outcome State Fault Refusal :=
  .next (s.writeV x ((s.reg x).toNat ^^^ (s.reg y).toNat)).advance

/-- ADD Vx, Vy (R147). -/
def execAddReg (x y : Reg) (s : State) : Host.Outcome State Fault Refusal :=
  .next (s.writeResultFlag x ((s.reg x).toNat + (s.reg y).toNat)
    (carryFlag (s.reg x) (s.reg y)))

/-- SUB Vx, Vy (R148): `V[x] - V[y]`. -/
def execSub (x y : Reg) (s : State) : Host.Outcome State Fault Refusal :=
  .next (s.writeResultFlag x ((s.reg x).toNat + 256 - (s.reg y).toNat)
    (notBorrowFlag (s.reg x) (s.reg y)))

/-- SHR Vx (R149): the y field is ignored. -/
def execShr (x _y : Reg) (s : State) : Host.Outcome State Fault Refusal :=
  .next (s.writeResultFlag x ((s.reg x).toNat / 2) (lowBitFlag (s.reg x)))

/-- SUBN Vx, Vy (R150): `V[y] - V[x]`. -/
def execSubn (x y : Reg) (s : State) : Host.Outcome State Fault Refusal :=
  .next (s.writeResultFlag x ((s.reg y).toNat + 256 - (s.reg x).toNat)
    (notBorrowFlag (s.reg y) (s.reg x)))

/-- SHL Vx (R151): the y field is ignored. -/
def execShl (x _y : Reg) (s : State) : Host.Outcome State Fault Refusal :=
  .next (s.writeResultFlag x ((s.reg x).toNat * 2) (highBitFlag (s.reg x)))

/-- RND Vx, nn (R152): a free byte AND nn. -/
def execRnd (x : Reg) (nn : Byte) (s : State) : Host.Outcome State Fault Refusal :=
  .next (s.draw.2.writeV x (s.draw.1.toNat &&& nn.toNat)).advance

end Sys2Proof.Machine
end

