-- ==== Sys2Proof/Machine/Control.lean ====
section
/-! DEFINITION. The control transfer instructions (40_control_transfer.md R120 to R128). -/

namespace Sys2Proof.Machine

/-- RET (R120): the popped value is used as it was pushed. -/
def execRet (s : State) : Host.Outcome State Fault Refusal :=
  match s.pop with
  | some (t, s') => .next (s'.jumpTo t.toNat)
  | none => .next (s.raiseUnderflow .ret)

/-- JP nnn (R121). -/
def execJp (nnn : Nat) (s : State) : Host.Outcome State Fault Refusal :=
  .next (s.jumpTo nnn)

/-- CALL nnn (R122): pushes `pc + 2`. -/
def execCall (nnn : Nat) (s : State) : Host.Outcome State Fault Refusal :=
  match s.push (s.pc.toNat + 2) with
  | some s' => .next (s'.jumpTo nnn)
  | none => .next (s.raiseOverflow (.call nnn))

/-- SE Vx, nn (R123). -/
def execSeImm (x : Reg) (nn : Byte) (s : State) : Host.Outcome State Fault Refusal :=
  .next (s.skipIf (decide (s.reg x = nn)))

/-- SNE Vx, nn (R124). -/
def execSneImm (x : Reg) (nn : Byte) (s : State) : Host.Outcome State Fault Refusal :=
  .next (s.skipIf (decide (s.reg x ≠ nn)))

/-- SE Vx, Vy (R125). -/
def execSeReg (x y : Reg) (s : State) : Host.Outcome State Fault Refusal :=
  .next (s.skipIf (decide (s.reg x = s.reg y)))

/-- SNE Vx, Vy (R126). -/
def execSneReg (x y : Reg) (s : State) : Host.Outcome State Fault Refusal :=
  .next (s.skipIf (decide (s.reg x ≠ s.reg y)))

/-- JP V0, nnn (R127): the sum is not reduced modulo 4096. -/
def execJpV0 (nnn : Nat) (s : State) : Host.Outcome State Fault Refusal :=
  .next (s.jumpTo (nnn + (s.reg 0).toNat))

end Sys2Proof.Machine
end

