-- ==== Sys2Proof/Machine/Display.lean ====
section
/-! DEFINITION. The framebuffer instructions and the sprite engine (43_display.md R170 to R174). -/

namespace Sys2Proof.Machine

/-- One destination pixel of the sprite loop: note a collision if the cell was set, then XOR it
(R172). -/
def drawCell (p : Framebuffer × Bool) (j : Nat) : Framebuffer × Bool :=
  (p.1 ^^^ BitVec.twoPow 2048 j, p.2 || p.1.getLsbD j)

/-- The sprite loop: the new framebuffer and whether a pixel collided (R172). -/
def drawCells (f : Framebuffer) (cells : List Nat) : Framebuffer × Bool :=
  cells.foldl drawCell (f, false)

/-- CLS (R170): VF is not written. -/
def execCls (s : State) : Host.Outcome State Fault Refusal :=
  .next (s.showFrame 0).advance

/-- DRW Vx, Vy, n (R172): all row bytes are read before anything is written, and the position is
read before VF is. -/
def execDrw (x y : Reg) (n : Nat) (s : State) : Host.Outcome State Fault Refusal :=
  match s.mem.readBlock s.dataAddress n with
  | .error a => .next (s.raiseData (.drw x y n) a)
  | .ok rows =>
    let d := drawCells s.fb (spriteCells (s.reg x).toNat (s.reg y).toNat rows)
    .next ((s.showFrame d.1).writeV flagReg (collisionFlag d.2)).advance

end Sys2Proof.Machine
end

