-- ==== Sys2Proof/Machine/IndexMemory.lean ====
section
/-! DEFINITION. The index register, loads and stores (42_index_memory.md R160 to R166). An access
out of range raises MemoryFault and nothing of the instruction takes effect (20_memory.md R62,
R68). -/

namespace Sys2Proof.Machine

/-- LD I, nnn (R160). -/
def execLdI (nnn : Nat) (s : State) : Host.Outcome State Fault Refusal :=
  .next (s.writeI nnn).advance

/-- ADD I, Vx (R161): 16 bits are kept, no flag. -/
def execAddI (x : Reg) (s : State) : Host.Outcome State Fault Refusal :=
  .next (s.writeI (s.idx.toNat + (s.reg x).toNat)).advance

/-- LD F, Vx (R162). -/
def execLdF (x : Reg) (s : State) : Host.Outcome State Fault Refusal :=
  .next (s.writeI (glyphAddress (s.reg x))).advance

/-- LD B, Vx (R163). -/
def execLdB (x : Reg) (s : State) : Host.Outcome State Fault Refusal :=
  match s.mem.writeBlock s.dataAddress (bcdDigits (s.reg x)) with
  | .ok m => .next (s.withMem m).advance
  | .error a => .next (s.raiseData (.ldB x) a)

/-- LD [I], Vx (R164): `I` is not changed. -/
def execStoreRegs (x : Reg) (s : State) : Host.Outcome State Fault Refusal :=
  match s.mem.writeBlock s.dataAddress (s.regsUpTo x) with
  | .ok m => .next (s.withMem m).advance
  | .error a => .next (s.raiseData (.storeRegs x) a)

/-- LD Vx, [I] (R165): `I` is advanced by x + 1. -/
def execLoadRegs (x : Reg) (s : State) : Host.Outcome State Fault Refusal :=
  match s.mem.readBlock s.dataAddress (x.val + 1) with
  | .ok bytes => .next ((s.writeFirst bytes).writeI (s.idx.toNat + x.val + 1)).advance
  | .error a => .next (s.raiseData (.loadRegs x) a)

end Sys2Proof.Machine
end

