-- ==== Sys2Proof/Machine/KeyboardTimers.lean ====
section
/-! DEFINITION. The keyboard and timer instructions (44_keyboard_timers.md R180 to R185). -/

namespace Sys2Proof.Machine

/-- SKP Vx (R180). -/
def execSkp (x : Reg) (s : State) : Host.Outcome State Fault Refusal :=
  if (s.reg x).toNat > 15 then .next (s.raiseKeyIndex (.skp x) (s.reg x).toNat)
  else .next (s.skipIf (s.keyPressed (s.reg x).toNat))

/-- SKNP Vx (R181). -/
def execSknp (x : Reg) (s : State) : Host.Outcome State Fault Refusal :=
  if (s.reg x).toNat > 15 then .next (s.raiseKeyIndex (.sknp x) (s.reg x).toNat)
  else .next (s.skipIf (!s.keyPressed (s.reg x).toNat))

/-- LD Vx, DT (R183). -/
def execLdVxDT (x : Reg) (s : State) : Host.Outcome State Fault Refusal :=
  .next (s.writeV x s.dt.toNat).advance

/-- LD Vx, K (R182): while no key is pressed nothing changes, and the next Step polls again. -/
def execLdVxK (x : Reg) (s : State) : Host.Outcome State Fault Refusal :=
  match s.leastKey with
  | some k => .next (s.writeV x k).advance
  | none => .next s

/-- LD DT, Vx (R184). -/
def execLdDTVx (x : Reg) (s : State) : Host.Outcome State Fault Refusal :=
  .next (s.writeDT (s.reg x)).advance

/-- LD ST, Vx (R185): the tone comes from the TimerTicks that follow. -/
def execLdSTVx (x : Reg) (s : State) : Host.Outcome State Fault Refusal :=
  .next (s.writeST (s.reg x)).advance

end Sys2Proof.Machine
end

