-- ==== Sys2Proof/Machine/Cycle.lean ====
section
/-! DEFINITION. The fetch-decode-execute cycle of a running machine (10_state.md R41). -/

namespace Sys2Proof.Machine

/-- Fetch, decode, execute, raising the first fault that applies (60_exceptions.md R208). -/
def cycle (s : State) : Host.Outcome State Fault Refusal :=
  match s.fetchWord with
  | .error a => .next (s.raiseFetch a)
  | .ok w =>
    match decode w with
    | .error _ => .next (s.raiseDecode w)
    | .ok i => exec i s

/-- `s` made ready to fetch the word `w` next: the word at `pc` and `pc + 1`; and, only where no
Step could fetch there, `pc` at the load address and no fault recorded
(notes/assumptions/13.md). -/
def State.placeWord (s : State) (w : Word) : State :=
  let p := if s.pc.toNat + 1 < Config.memSize then s.pc.toNat else Config.loadBase
  { s with mem := (s.mem.set p (bytesOfWord w).1).set (p + 1) (bytesOfWord w).2,
           pc := BitVec.ofNat 16 p, fault := none }

end Sys2Proof.Machine
end

