-- ==== Sys2Proof/Machine/Step.lean ====
section
/-! DEFINITION. The CPU's transition Step (10_state.md R41, R42). -/

namespace Sys2Proof.Machine

/-- One Step, enabled only while no fault is recorded (R42). -/
def step (s : State) : Host.Outcome State Fault Refusal :=
  match s.fault with
  | some _ => .fault .halted
  | none => cycle s

/-- `s` with the instruction whose bits are `w` (numbered as spec/opcode_table.json numbers them,
bits at and above `nbits` 0) stored where `step` fetches next. -/
def State.withFetchWord (s : State) (nbits w : Nat) : State :=
  s.placeWord (BitVec.ofNat 16 (w % 2 ^ nbits))

end Sys2Proof.Machine
end

