-- ==== Sys2Proof/Machine/Agents.lean ====
section
/-! DEFINITION. The other agents: the timer controller and the host (10_state.md R40,
60_exceptions.md R214 to R223, 70_reset_and_hazards.md R240). Each of their transitions falls
between Steps; none falls inside one (notes/assumptions/12.md). -/

namespace Sys2Proof.Machine

/-! ## Timer controller -/

/-- One decrement that stops at 0 (R215). -/
def countDown (b : Byte) : Byte := BitVec.ofNat 8 (b.toNat - 1)

/-- Both timers after a TimerTick (R215). -/
def State.tickTimers (s : State) : State := { s with dt := countDown s.dt, st := countDown s.st }

/-- The tone bit of a TimerTick: ST was non-zero at its start (R216). -/
def State.tone (s : State) : Bool := decide (s.st ≠ 0)

/-- TimerTick, enabled only while no fault is recorded (R215); its output is the tone bit. -/
def timerTick (s : State) : Host.Outcome (State × Bool) Fault Refusal :=
  match s.fault with
  | some _ => .fault .halted
  | none => .next (s.tickTimers, s.tone)

/-! ## Host -/

/-- Reset: every component at its reset value, whatever it was (R240); FONT is a parameter of the
machine (00_scope.md R6). The free bytes already drawn stay drawn (notes/assumptions/1.md). -/
def hostReset (font : Font) (s : State) : State := { State.resetWith font with draws := s.draws }

/-- The longest program that fits, 4096 - 0x200 (R220). -/
def maxProgram : Nat := Config.memSize - Config.loadBase

/-- LoadProgram(bytes) (R220): the copy, or a LoadFault with memory unchanged. -/
def loadProgram (bytes : List Byte) (s : State) : State :=
  if bytes.length > maxProgram then s.raiseLoad bytes.length
  else s.withMem (s.mem.setBlock Config.loadBase bytes)

/-- SetKeys(vector) (R219). -/
def setKeys (vector : KeyVector) (s : State) : State := { s with keys := vector }

/-- AckRedraw (R222). -/
def ackRedraw (s : State) : State := { s with redraw := false }

/-- ReadFramebuffer: the 2048 cells, row-major (R221). -/
def readFramebuffer (s : State) : Framebuffer := s.fb

/-- ReadRedraw (R221). -/
def readRedraw (s : State) : Bool := s.redraw

/-- ReadFault (R223). -/
def readFault (s : State) : Option FaultRecord := s.fault

/-! ## All agents together -/

/-- The named atomic transitions (R40, R218). -/
inductive Transition where
  | step
  | timerTick
  | reset
  | loadProgram (bytes : List Byte)
  | setKeys (vector : KeyVector)
  | ackRedraw
  | readFramebuffer
  | readRedraw
  | readFault
  deriving DecidableEq, Repr

/-- What a transition hands to the outside (R216, R221, R223). -/
inductive Output where
  | nothing
  | tone (b : Bool)
  | framebuffer (f : Framebuffer)
  | redraw (b : Bool)
  | fault (r : Option FaultRecord)
  deriving DecidableEq, Repr

/-- One transition of one agent of the machine with glyph table `font`: the state after it and its
output. -/
def transition (font : Font) (t : Transition) (s : State) :
    Host.Outcome (State × Output) Fault Refusal :=
  match t with
  | .step =>
    match Machine.step s with
    | .next s' => .next (s', .nothing)
    | .fault r => .fault r
    | .refused r => .refused r
  | .timerTick =>
    match Machine.timerTick s with
    | .next (s', b) => .next (s', .tone b)
    | .fault r => .fault r
    | .refused r => .refused r
  | .reset => .next (hostReset font s, .nothing)
  | .loadProgram bytes => .next (Machine.loadProgram bytes s, .nothing)
  | .setKeys vector => .next (Machine.setKeys vector s, .nothing)
  | .ackRedraw => .next (Machine.ackRedraw s, .nothing)
  | .readFramebuffer => .next (s, .framebuffer (Machine.readFramebuffer s))
  | .readRedraw => .next (s, .redraw (Machine.readRedraw s))
  | .readFault => .next (s, .fault (Machine.readFault s))

/-- A schedule of transitions, in any interleaving (R217): the state after the last one and the
outputs in order, or the first stop. -/
def runSchedule (font : Font) :
    List Transition → State → Host.Outcome (State × List Output) Fault Refusal
  | [], s => .next (s, [])
  | t :: ts, s =>
    match transition font t s with
    | .fault r => .fault r
    | .refused r => .refused r
    | .next (s', o) =>
      match runSchedule font ts s' with
      | .fault r => .fault r
      | .refused r => .refused r
      | .next (s'', os) => .next (s'', o :: os)

/-- ClockTick with STEPS_PER_TICK = k: k Steps, then one TimerTick (R217;
notes/assumptions/7.md). -/
def clockTick (font : Font) (k : Nat) (s : State) :
    Host.Outcome (State × List Output) Fault Refusal :=
  runSchedule font (List.replicate k .step ++ [.timerTick]) s

end Sys2Proof.Machine
end

