-- ==== Sys2Proof/Safety.lean ====
section
/-! DEFINITION. The terms in which claims are stated: what an instruction may change, which
instruction can raise a fault, the invariant of every reachable state, and the end of a run. -/

namespace Sys2Proof.Machine

/-! ## Frames -/

/-- The components of the state beside the general registers; `stack` is the entries and the depth
(10_state.md R20). -/
inductive Part where
  | mem
  | idx
  | pc
  | stack
  | dt
  | st
  | keys
  | fb
  | redraw
  | fault
  | draws
  deriving DecidableEq, Repr

/-- From `s` to `t` nothing changed but the registers `dst` and the components `parts`; memory is
compared by reading every byte of it. -/
structure Frame (s t : State) (dst : List Reg) (parts : List Part) : Prop where
  regs : ∀ r, r ∉ dst → t.reg r = s.reg r
  mem : Part.mem ∉ parts → ∀ a, t.mem.get a = s.mem.get a
  idx : Part.idx ∉ parts → t.idx = s.idx
  pc : Part.pc ∉ parts → t.pc = s.pc
  stack : Part.stack ∉ parts → t.stack = s.stack ∧ t.sp = s.sp
  dt : Part.dt ∉ parts → t.dt = s.dt
  st : Part.st ∉ parts → t.st = s.st
  keys : Part.keys ∉ parts → t.keys = s.keys
  fb : Part.fb ∉ parts → t.fb = s.fb
  redraw : Part.redraw ∉ parts → t.redraw = s.redraw
  fault : Part.fault ∉ parts → t.fault = s.fault
  draws : Part.draws ∉ parts → t.draws = s.draws

/-- Every byte of memory outside the `n` bytes at `a` reads in `t` as it reads in `s`. -/
def SameMemOutside (s t : State) (a n : Nat) : Prop :=
  ∀ c, c < a ∨ a + n ≤ c → t.mem.get c = s.mem.get c

/-! ## Faults -/

/-- Which instruction can raise a fault in its execute phase, and when: the table of
60_exceptions.md R209. -/
def raisesFault (i : Instr) (s : State) : Prop :=
  match i with
  | .ret => s.sp.val = 0
  | .call _ => s.sp.val = 16
  | .drw _ _ n => n ≥ 1 ∧ s.idx.toNat + n - 1 > 0xFFF
  | .ldB _ => s.idx.toNat + 2 > 0xFFF
  | .storeRegs x | .loadRegs x => s.idx.toNat + x.val > 0xFFF
  | .skp x | .sknp x => (s.reg x).toNat > 15
  | .cls | .jp _ | .seImm _ _ | .sneImm _ _ | .seReg _ _ | .ldImm _ _ | .addImm _ _ => False
  | .ldReg _ _ | .orReg _ _ | .andReg _ _ | .xorReg _ _ | .addReg _ _ | .sub _ _ => False
  | .shr _ _ | .subn _ _ | .shl _ _ | .sneReg _ _ | .ldI _ | .jpV0 _ | .rnd _ _ => False
  | .ldVxDT _ | .ldVxK _ | .ldDTVx _ | .ldSTVx _ | .addI _ | .ldF _ => False

/-- The kind of fault an instruction can raise in its execute phase (R209); of no account for an
instruction that raises none. -/
def faultKindOf : Instr → FaultKind
  | .ret | .call _ => .stackFault
  | .skp _ | .sknp _ => .keyIndexFault
  | .drw _ _ _ | .ldB _ | .storeRegs _ | .loadRegs _ => .memoryFault
  | .cls | .jp _ | .seImm _ _ | .sneImm _ _ | .seReg _ _ | .ldImm _ _ => .memoryFault
  | .addImm _ _ | .ldReg _ _ | .orReg _ _ | .andReg _ _ | .xorReg _ _ => .memoryFault
  | .addReg _ _ | .sub _ _ | .shr _ _ | .subn _ _ | .shl _ _ | .sneReg _ _ => .memoryFault
  | .ldI _ | .jpV0 _ | .rnd _ _ | .ldVxDT _ | .ldVxK _ | .ldDTVx _ | .ldSTVx _ => .memoryFault
  | .addI _ | .ldF _ => .memoryFault

/-- `s` with the fault record `r` and nothing else changed (R207). A record is written
⟨kind, sub, pc, word, info⟩. -/
def haltedWith (s : State) (r : FaultRecord) : State := { s with fault := some r }

/-- The record is of one of the rows of the table of R206. -/
def FaultRecord.isRow (r : FaultRecord) : Prop :=
  match r.kind with
  | .decodeFault =>
    r.sub = none ∧ r.info = none ∧ ∃ w e, r.word = some w ∧ decode w = .error e
  | .stackFault =>
    (r.sub = some 0 ∧ r.info = some 0 ∧ ∃ w nnn, r.word = some w ∧ decode w = .ok (.call nnn)) ∨
    (r.sub = some 1 ∧ r.info = some 1 ∧ r.word = some 0x00EE)
  | .loadFault => r.sub = none ∧ r.word = none ∧ ∃ len, r.info = some len ∧ 3584 < len
  | .memoryFault =>
    (r.sub = some 0 ∧ r.word = none ∧ ∃ a, r.info = some a ∧ 0xFFF < a) ∨
    (r.sub = some 1 ∧ (∃ w, r.word = some w) ∧ ∃ a, r.info = some a ∧ 0xFFF < a)
  | .keyIndexFault =>
    r.sub = none ∧ (∃ w, r.word = some w) ∧ ∃ k, r.info = some k ∧ 15 < k ∧ k < 256

/-! ## The flag register -/

/-- The six instructions that write VF as a side effect (10_state.md R22). -/
def writesFlag : Instr → Bool
  | .addReg _ _ | .sub _ _ | .shr _ _ | .subn _ _ | .shl _ _ | .drw _ _ _ => true
  | .cls | .ret | .jp _ | .call _ | .seImm _ _ | .sneImm _ _ | .seReg _ _ | .ldImm _ _ => false
  | .addImm _ _ | .ldReg _ _ | .orReg _ _ | .andReg _ _ | .xorReg _ _ | .sneReg _ _ => false
  | .ldI _ | .jpV0 _ | .rnd _ _ | .skp _ | .sknp _ | .ldVxDT _ | .ldVxK _ | .ldDTVx _ => false
  | .ldSTVx _ | .addI _ | .ldF _ | .ldB _ | .storeRegs _ | .loadRegs _ => false

/-- The registers an instruction names as its destination (10_state.md R22, files 41, 42 and 44). -/
def namesDestination (i : Instr) (r : Reg) : Bool :=
  match i with
  | .ldImm x _ | .addImm x _ | .rnd x _ => decide (r = x)
  | .ldReg x _ | .orReg x _ | .andReg x _ | .xorReg x _ => decide (r = x)
  | .addReg x _ | .sub x _ | .shr x _ | .subn x _ | .shl x _ => decide (r = x)
  | .ldVxDT x | .ldVxK x => decide (r = x)
  | .loadRegs x => decide (r.val ≤ x.val)
  | .cls | .ret | .jp _ | .call _ | .seImm _ _ | .sneImm _ _ | .seReg _ _ | .sneReg _ _ => false
  | .ldI _ | .jpV0 _ | .drw _ _ _ | .skp _ | .sknp _ | .ldDTVx _ | .ldSTVx _ | .addI _ => false
  | .ldF _ | .ldB _ | .storeRegs _ => false

/-! ## Sprites -/

/-- The sprite of `n` rows at `I`, drawn at (x0, y0), has a set bit that lands on pixel (px, py)
(43_display.md R171, R172; the leftmost pixel is bit 7 by D7, notes/assumptions/17.md). -/
def spriteCovers (s : State) (x0 y0 n px py : Nat) : Prop :=
  ∃ r, r < n ∧ ∃ col, col < 8 ∧ (s.mem.get (s.idx.toNat + r)).getLsbD (7 - col) = true ∧
    px = (x0 + col) % 64 ∧ py = (y0 + r) % 32

/-! ## Invariant and runs -/

/-- What holds in every reachable state beyond what the types say: memory is in canonical form
(10_state.md R43), program counter and stored return addresses stay below the bounds of R26, and a
recorded fault is one of R206's rows and names the pc the machine stopped at (R207). -/
structure State.Inv (s : State) : Prop where
  memWf : s.mem.wf = true
  pcBound : s.pc.toNat ≤ 0x10FE
  returnBound : ∀ k : Fin 16, k.val < s.sp.val → s.stack[k.val].toNat ≤ 0x1000
  faultRow : ∀ r, s.fault = some r → r.pc = s.pc ∧ r.isRow

/-- "Finished", the convention of 70_reset_and_hazards.md R249: no fault, and the word at `pc` is a
jump to `pc`. IT DOES NOT COVER PROGRAMS THAT WAIT FOREVER IN LD Vx,K, PROGRAMS THAT SPIN ON DT, OR
HOSTS THAT STOP ELSEWHERE. -/
def State.finished (s : State) : Bool :=
  match s.fault, s.fetchWord with
  | none, .ok w => decide (decode w = .ok (.jp s.pc.toNat))
  | none, .error _ => false
  | some _, _ => false

/-- The machine has not stopped on a fault (R42). -/
def State.running (s : State) : Bool := decide (s.fault = none)

end Sys2Proof.Machine

namespace Sys2Proof

/-- The word with the bits the decoder does not examine cleared: `n` in families 0x5 and 0x9
(30_encoding.md R98). -/
def canonicalWord (w : Word) : Word :=
  if w.toNat / 4096 = 5 ∨ w.toNat / 4096 = 9 then w &&& 0xFFF0#16 else w

end Sys2Proof
end

