-- ==== Sys2Proof/Certificates/Slice0/Obligations.lean ====
section
/-! DEFINITION. The statements for the provers. D<n> is a decision of spec/92_eei_decisions.md: a
statement that rests on one says so. -/

open Sys2Proof Sys2Proof.Machine

/-! ## Encoding -/

/-- Decoding the word of a well-formed instruction gives the instruction back, for every instruction
and every operand value the encoding admits (30_encoding.md R95, R96; the numbers are D1's). -/
def Obligations.DecodeOfEncodeReturnsInstruction : Prop :=
  ∀ i : Instr, i.wellFormed = true → decode (encode i) = .ok i

/-- The other direction: the instruction read from a word is well-formed and its own word is that
word, but for the bits R98 leaves unexamined (D1, D2). So no bit the table makes significant is
dropped, and each legal word has one meaning. -/
def Obligations.EncodeOfDecodeIsCanonicalWord : Prop :=
  ∀ (w : Word) (i : Instr), decode w = .ok i → i.wellFormed = true ∧ encode i = canonicalWord w

/-- The words that decode to no instruction are those of R99's table (D1, D2, D30). -/
def Obligations.IllegalWordsAreThoseOfTheTable : Prop :=
  ∀ w : Word, (∃ e, decode w = .error e) ↔
    (w.toNat / 4096 = 0x0 ∧ w ≠ 0x00E0 ∧ w ≠ 0x00EE) ∨
    (w.toNat / 4096 = 0x8 ∧ w.toNat % 16 ∈ [0x8, 0x9, 0xA, 0xB, 0xC, 0xD, 0xF]) ∨
    (w.toNat / 4096 = 0xE ∧ w.toNat % 256 ∉ [0x9E, 0xA1]) ∨
    (w.toNat / 4096 = 0xF ∧
      w.toNat % 256 ∉ [0x07, 0x0A, 0x15, 0x18, 0x1E, 0x29, 0x33, 0x55, 0x65])

/-- Words written out from the opcode table, one of each format, decode to what they stand for
(R96; D1), among them two with don't-care bits set (R98, R100; D2). -/
def Obligations.WordsOfTheTableDecode : Prop :=
  decode 0b0000000011101110 = .ok .ret ∧
  decode 0b0010001100000001 = .ok (.call 0x301) ∧
  decode 0b0111000111111110 = .ok (.addImm 1 0xFE) ∧
  decode 0b1000000111110111 = .ok (.subn 1 15) ∧
  decode 0b1101001010100101 = .ok (.drw 2 10 5) ∧
  decode 0b1111010001010101 = .ok (.storeRegs 4) ∧
  decode 0b0101001101001111 = .ok (.seReg 3 4) ∧
  decode 0b1000001010010110 = .ok (.shr 2 9)

/-! ## Step, faults and halting -/

/-- A running machine whose two bytes at `pc` make the word of an instruction does what that
instruction does, and nothing around it (10_state.md R41, 20_memory.md R63). -/
def Obligations.StepRunsTheDecodedInstruction : Prop :=
  ∀ (s : State) (i : Instr), s.fault = none → s.pc.toNat ≤ 0xFFE →
    decode (BitVec.ofNat 16
      ((s.mem.get s.pc.toNat).toNat * 256 + (s.mem.get (s.pc.toNat + 1)).toNat)) = .ok i →
    step s = exec i s

/-- A fetch outside memory changes nothing but the fault record, which names the first address out
of range (60_exceptions.md R204, R206, R208; D3, D10, D29). -/
def Obligations.FetchOutsideMemoryRaisesMemoryFault : Prop :=
  ∀ s : State, s.fault = none → s.pc.toNat > 0xFFE →
    step s = .next (haltedWith s
      ⟨.memoryFault, some 0, s.pc, none, some (max s.pc.toNat 0x1000)⟩)

/-- A step that fetches an illegal word changes nothing but the fault record, which holds the pc of
the word and the word (R201). -/
def Obligations.IllegalWordRaisesDecodeFault : Prop :=
  ∀ (s : State) (w : Word) (e : DecodeError), s.fault = none → s.pc.toNat ≤ 0xFFE →
    w.toNat = (s.mem.get s.pc.toNat).toNat * 256 + (s.mem.get (s.pc.toNat + 1)).toNat →
    decode w = .error e →
    step s = .next (haltedWith s
      ⟨.decodeFault, none, s.pc, some w, none⟩)

/-- Faults are precise: a step that ends with a fault recorded changed the fault record and nothing
else, and the record names the pc and, where the fetch succeeded, the fetched word (R206, R207; D9,
D10). -/
def Obligations.FaultingStepChangesOnlyTheFaultRecord : Prop :=
  ∀ s t : State, step s = .next t → t.fault ≠ none →
    ∃ r, t = haltedWith s r ∧ r.pc = s.pc ∧
      ∀ w, s.fetchWord = .ok w → r.word = some w

/-- Every instruction answers a next state in every state, and it records a fault exactly where the
table of R209 says, of the kind the table says (MemoryFault is D3's, KeyIndexFault D11's). -/
def Obligations.InstructionFaultsExactlyWhereTheTableSays : Prop :=
  ∀ (i : Instr) (s : State), s.fault = none →
    ∃ t, exec i s = .next t ∧ (t.fault ≠ none ↔ raisesFault i s) ∧
      ∀ r, t.fault = some r → r.kind = faultKindOf i

/-- A halted machine has no Step and no TimerTick, and no sequence of the host's other transitions
restarts it or touches what a program computes: only Reset clears the fault (10_state.md R42, R240;
D19). -/
def Obligations.OnlyResetLeavesTheHaltedState : Prop :=
  (∀ s : State, s.fault ≠ none → step s = .fault .halted ∧ timerTick s = .fault .halted) ∧
  ∀ (font : Font) (ts : List Transition) (s t : State) (os : List Output), s.fault ≠ none →
    .reset ∉ ts → runSchedule font ts s = .next (t, os) →
    t.fault ≠ none ∧ .step ∉ ts ∧ .timerTick ∉ ts ∧
    (∀ r, t.reg r = s.reg r) ∧ t.pc = s.pc ∧ t.idx = s.idx ∧ t.stack = s.stack ∧ t.sp = s.sp ∧
    t.dt = s.dt ∧ t.st = s.st ∧ t.fb = s.fb

/-! ## Invariant -/

/-- Every step keeps the invariant: canonical memory, the bounds of R26 on program counter and
return addresses, and a well-formed fault record (10_state.md R26, R43 [derived]; R206, R207, D9,
D10). -/
def Obligations.StepKeepsTheMachineInvariant : Prop :=
  ∀ s t : State, s.Inv → step s = .next t → t.Inv

/-- The reset state meets the invariant (R39), whatever the glyph table FONT is (R6). -/
def Obligations.ResetMeetsTheMachineInvariant : Prop :=
  State.reset.Inv ∧ ∀ font : Font, (State.resetWith font).Inv

/-- Every schedule of all three agents, in any interleaving, keeps the invariant (R40, R217,
D13). -/
def Obligations.EveryScheduleKeepsTheMachineInvariant : Prop :=
  ∀ (font : Font) (ts : List Transition) (s t : State) (os : List Output),
    s.Inv → runSchedule font ts s = .next (t, os) → t.Inv

/-! ## Whole-machine rules -/

/-- Which instructions write each component of the state beside the registers and the pc: the
"written by" column of 10_state.md R20, for instructions. No instruction writes the keys, and none
clears the redraw flag (R32, R34). That column names CALL and RET for the stack; that RET changes
only the depth and leaves the popped slot its value is R30's representation, by D25
(notes/assumptions/19.md). `draws` is the model's own (notes/assumptions/1.md). -/
def Obligations.EachComponentHasOnlyItsWriters : Prop :=
  ∀ (i : Instr) (s t : State), exec i s = .next t →
    (t.mem ≠ s.mem → ∃ x, i = .ldB x ∨ i = .storeRegs x) ∧
    (t.idx ≠ s.idx → ∃ x n, i = .ldI n ∨ i = .addI x ∨ i = .ldF x ∨ i = .loadRegs x) ∧
    (t.stack ≠ s.stack → ∃ n, i = .call n) ∧
    (t.sp ≠ s.sp → ∃ n, i = .call n ∨ i = .ret) ∧
    (t.dt ≠ s.dt → ∃ x, i = .ldDTVx x) ∧
    (t.st ≠ s.st → ∃ x, i = .ldSTVx x) ∧
    t.keys = s.keys ∧
    (t.fb ≠ s.fb → ∃ x y n, i = .cls ∨ i = .drw x y n) ∧
    (t.redraw ≠ s.redraw → t.redraw = true ∧ ∃ x y n, i = .cls ∨ i = .drw x y n) ∧
    (t.draws ≠ s.draws → ∃ x nn, i = .rnd x nn)

/-- A register changes only under an instruction that names it as its destination, and VF also under
the six flag-writing instructions: "No other instruction writes VF as a side effect" (10_state.md
R22). -/
def Obligations.RegistersChangeOnlyAsDestinationOrFlag : Prop :=
  ∀ (i : Instr) (s t : State) (r : Reg), exec i s = .next t → t.reg r ≠ s.reg r →
    namesDestination i r = true ∨ (r = 15 ∧ writesFlag i = true)

/-- "No instruction reads a pixel into a register; the only way a program observes the framebuffer
is the collision flag of DRW" (43_display.md R174): any other instruction does the same whatever the
framebuffer holds, and leaves it, but for CLS, which clears it; and what DRW does to everything but
the framebuffer and VF does not depend on the framebuffer. -/
def Obligations.FramebufferIsObservedOnlyByDraw : Prop :=
  (∀ (i : Instr) (s : State) (f : Framebuffer), (∀ x y n, i ≠ .drw x y n) →
    ∃ t, exec i s = .next t ∧
      exec i { s with fb := f } = .next { t with fb := if i = .cls then 0 else f }) ∧
  ∀ (x y : Reg) (n : Nat) (s : State) (f : Framebuffer),
    ∃ t u, exec (.drw x y n) s = .next t ∧ exec (.drw x y n) { s with fb := f } = .next u ∧
      { u with fb := 0, v := u.v.set 15 0 } = { t with fb := 0, v := t.v.set 15 0 }

/-- No instruction reads ST or the redraw flag: what it does to everything else does not depend on
them (10_state.md R31, R34, R36). -/
def Obligations.SoundTimerAndRedrawAreNeverRead : Prop :=
  ∀ (i : Instr) (s : State) (b : Byte) (d : Bool),
    ∃ t u, exec i s = .next t ∧ exec i { s with st := b, redraw := d } = .next u ∧
      { u with st := 0, redraw := false } = { t with st := 0, redraw := false }

/-! ## Control transfer -/

/-- JP nnn and JP V0, nnn (40_control_transfer.md R121, R127): the target, unreduced, and nothing
else changes. -/
def Obligations.JumpsSetOnlyTheProgramCounter : Prop :=
  ∀ (nnn : Nat) (s : State), nnn < 4096 →
    (∃ t, exec (.jp nnn) s = .next t ∧ t.pc.toNat = nnn ∧ Frame s t [] [.pc]) ∧
    (∃ t, exec (.jpV0 nnn) s = .next t ∧ t.pc.toNat = nnn + (s.reg 0).toNat ∧
      Frame s t [] [.pc])

/-- CALL nnn (R122): below depth 16 it pushes `pc + 2` and jumps; at depth 16 it raises
StackFault(overflow) and pushes nothing (R202; the record's numbers are D10's labels). -/
def Obligations.CallPushesTheReturnAddress : Prop :=
  ∀ (nnn : Nat) (s : State), nnn < 4096 →
    (s.sp.val < 16 → ∃ t, exec (.call nnn) s = .next t ∧ t.pc.toNat = nnn ∧
      t.sp.val = s.sp.val + 1 ∧
      (∀ k : Fin 16, t.stack[k.val] = if k.val = s.sp.val then s.pc + 2 else s.stack[k.val]) ∧
      Frame s t [] [.pc, .stack]) ∧
    (s.sp.val = 16 → exec (.call nnn) s = .next (haltedWith s
      ⟨.stackFault, some 0, s.pc, some (BitVec.ofNat 16 (0x2000 + nnn)), some 0⟩))

/-- RET (R120): above depth 0 the pc becomes the entry on top, as it was pushed, and the depth
falls by one, the popped slot keeping its value (R30; D25, notes/assumptions/19.md); at depth 0 it
raises StackFault(underflow) (R202; the record's numbers are D10's labels). -/
def Obligations.ReturnPopsTheReturnAddress : Prop :=
  ∀ s : State,
    (∀ k : Fin 16, s.sp.val = k.val + 1 → ∃ t, exec .ret s = .next t ∧ t.pc = s.stack[k.val] ∧
      t.sp.val = k.val ∧ t.stack = s.stack ∧ Frame s t [] [.pc, .stack]) ∧
    (s.sp.val = 0 → exec .ret s = .next (haltedWith s
      ⟨.stackFault, some 1, s.pc, some 0x00EE, some 1⟩))

/-- A call and the return that follows it come back to the instruction after the call with the
stack depth as it was, and only the used stack slot differs (R120, R122, property S7 of
95_test_vectors.md). -/
def Obligations.CallThenReturnComesBack : Prop :=
  ∀ (nnn : Nat) (s : State), s.sp.val < 16 →
    ∃ t u, exec (.call nnn) s = .next t ∧ exec .ret t = .next u ∧ u.pc = s.pc + 2 ∧
      u.sp = s.sp ∧ (∀ k : Fin 16, k.val ≠ s.sp.val → u.stack[k.val] = s.stack[k.val]) ∧
      Frame s u [] [.pc, .stack]

/-- The four register skips (R123 to R126): the pc advances by 4 if the condition holds, else by 2,
and nothing else changes. -/
def Obligations.CompareSkipsAdvanceByFourOrTwo : Prop :=
  ∀ (x y : Reg) (nn : Byte) (s : State),
    (∃ t, exec (.seImm x nn) s = .next t ∧ Frame s t [] [.pc] ∧
      t.pc = s.pc + (if s.reg x = nn then 4 else 2)) ∧
    (∃ t, exec (.sneImm x nn) s = .next t ∧ Frame s t [] [.pc] ∧
      t.pc = s.pc + (if s.reg x = nn then 2 else 4)) ∧
    (∃ t, exec (.seReg x y) s = .next t ∧ Frame s t [] [.pc] ∧
      t.pc = s.pc + (if s.reg x = s.reg y then 4 else 2)) ∧
    (∃ t, exec (.sneReg x y) s = .next t ∧ Frame s t [] [.pc] ∧
      t.pc = s.pc + (if s.reg x = s.reg y then 2 else 4))

/-! ## Registers, arithmetic and logic -/

/-- LD Vx, nn; ADD Vx, nn; LD Vx, Vy (41_alu.md R140 to R142): the destination, no flag unless it is
the destination, and nothing else but the pc. -/
def Obligations.LoadsAndAddImmediateWriteTheirDestination : Prop :=
  ∀ (x y : Reg) (nn : Byte) (s : State),
    (∃ t, exec (.ldImm x nn) s = .next t ∧ t.reg x = nn ∧ t.pc = s.pc + 2 ∧
      Frame s t [x] [.pc]) ∧
    (∃ t, exec (.addImm x nn) s = .next t ∧ t.reg x = s.reg x + nn ∧ t.pc = s.pc + 2 ∧
      Frame s t [x] [.pc]) ∧
    (∃ t, exec (.ldReg x y) s = .next t ∧ t.reg x = s.reg y ∧ t.pc = s.pc + 2 ∧
      Frame s t [x] [.pc])

/-- OR, AND and XOR (R143 to R145): the bitwise result, and VF is not touched unless it is the
destination. -/
def Obligations.LogicWritesOnlyItsDestination : Prop :=
  ∀ (x y : Reg) (s : State),
    (∃ t, exec (.orReg x y) s = .next t ∧ t.reg x = s.reg x ||| s.reg y ∧ t.pc = s.pc + 2 ∧
      Frame s t [x] [.pc]) ∧
    (∃ t, exec (.andReg x y) s = .next t ∧ t.reg x = s.reg x &&& s.reg y ∧ t.pc = s.pc + 2 ∧
      Frame s t [x] [.pc]) ∧
    (∃ t, exec (.xorReg x y) s = .next t ∧ t.reg x = s.reg x ^^^ s.reg y ∧ t.pc = s.pc + 2 ∧
      Frame s t [x] [.pc])

/-- ADD Vx, Vy, SUB and SUBN (R147, R148, R150): the wrapped result, carry or not-borrow in VF; with
x = 15 VF holds the flag (the order of the two writes is D8's). -/
def Obligations.AddAndSubtractSetResultAndFlag : Prop :=
  ∀ (x y : Reg) (s : State),
    (∃ t, exec (.addReg x y) s = .next t ∧ (x ≠ 15 → t.reg x = s.reg x + s.reg y) ∧
      t.reg 15 = (if (s.reg x).toNat + (s.reg y).toNat > 255 then 1 else 0) ∧
      t.pc = s.pc + 2 ∧ Frame s t [x, 15] [.pc]) ∧
    (∃ t, exec (.sub x y) s = .next t ∧ (x ≠ 15 → t.reg x = s.reg x - s.reg y) ∧
      t.reg 15 = (if s.reg y ≤ s.reg x then 1 else 0) ∧
      t.pc = s.pc + 2 ∧ Frame s t [x, 15] [.pc]) ∧
    (∃ t, exec (.subn x y) s = .next t ∧ (x ≠ 15 → t.reg x = s.reg y - s.reg x) ∧
      t.reg 15 = (if s.reg x ≤ s.reg y then 1 else 0) ∧
      t.pc = s.pc + 2 ∧ Frame s t [x, 15] [.pc])

/-- SHR and SHL (R149, R151): a logical shift of V[x] by one, the bit shifted out in VF, whatever
the y field is (R100); with x = 15 VF holds the flag (D8). -/
def Obligations.ShiftsSetResultAndShiftedOutBit : Prop :=
  ∀ (x y : Reg) (s : State),
    (∃ t, exec (.shr x y) s = .next t ∧ (x ≠ 15 → t.reg x = s.reg x >>> 1) ∧
      t.reg 15 = s.reg x &&& 1#8 ∧ t.pc = s.pc + 2 ∧ Frame s t [x, 15] [.pc]) ∧
    (∃ t, exec (.shl x y) s = .next t ∧ (x ≠ 15 → t.reg x = s.reg x <<< 1) ∧
      t.reg 15 = s.reg x >>> 7 ∧ t.pc = s.pc + 2 ∧ Frame s t [x, 15] [.pc]) ∧
    (∀ y', exec (.shr x y) s = exec (.shr x y') s ∧ exec (.shl x y) s = exec (.shl x y') s)

/-- RND Vx, nn (R152): the free byte AND nn, so every bit clear in nn is clear in the result; the
next execution draws another byte. It holds for every value of the free byte (D16,
notes/assumptions/1.md). -/
def Obligations.RandomByteIsMasked : Prop :=
  ∀ (x : Reg) (nn : Byte) (s : State),
    ∃ t, exec (.rnd x nn) s = .next t ∧ t.reg x = Config.freeByte s.draws &&& nn ∧
      t.reg x &&& ~~~nn = 0 ∧ t.draws = s.draws + 1 ∧ t.pc = s.pc + 2 ∧
      Frame s t [x] [.pc, .draws]

/-! ## Index register, loads and stores -/

/-- LD I, nnn (42_index_memory.md R160): bits 15 to 12 of I become 0. -/
def Obligations.LoadIndexSetsTwelveBitAddress : Prop :=
  ∀ (nnn : Nat) (s : State), nnn < 4096 →
    ∃ t, exec (.ldI nnn) s = .next t ∧ t.idx.toNat = nnn ∧ t.pc = s.pc + 2 ∧
      Frame s t [] [.idx, .pc]

/-- ADD I, Vx and LD F, Vx (R161, R162): 16-bit sum without a flag (D14); the address of a glyph,
the digit not reduced (D15). -/
def Obligations.IndexArithmeticKeepsSixteenBits : Prop :=
  ∀ (x : Reg) (s : State),
    (∃ t, exec (.addI x) s = .next t ∧ t.idx = s.idx + (s.reg x).setWidth 16 ∧
      t.pc = s.pc + 2 ∧ Frame s t [] [.idx, .pc]) ∧
    (∃ t, exec (.ldF x) s = .next t ∧ t.idx.toNat = 0x050 + 5 * (s.reg x).toNat ∧
      t.pc = s.pc + 2 ∧ Frame s t [] [.idx, .pc])

/-- LD B, Vx (R163): the three decimal digits at I, I+1, I+2, and no other byte; or, when I + 2 is
out of range, a MemoryFault at the first address out of range and no cell written. -/
def Obligations.DecimalStoreWritesThreeDigits : Prop :=
  ∀ (x : Reg) (s : State), s.mem.wf = true →
    (s.idx.toNat ≤ 0xFFD → ∃ t h d o, exec (.ldB x) s = .next t ∧
      (t.mem.get s.idx.toNat).toNat = h ∧ (t.mem.get (s.idx.toNat + 1)).toNat = d ∧
      (t.mem.get (s.idx.toNat + 2)).toNat = o ∧
      (s.reg x).toNat = 100 * h + 10 * d + o ∧ h ≤ 2 ∧ d ≤ 9 ∧ o ≤ 9 ∧
      SameMemOutside s t s.idx.toNat 3 ∧ t.pc = s.pc + 2 ∧ Frame s t [] [.mem, .pc]) ∧
    (s.idx.toNat > 0xFFD → exec (.ldB x) s = .next (haltedWith s
      ⟨.memoryFault, some 1, s.pc, some (BitVec.ofNat 16 (0xF033 + x.val * 256)),
        some (max s.idx.toNat 0x1000)⟩))

/-- LD [I], Vx (R164): V[k] at I + k for every k up to x, no other byte, and I unchanged (D24); or a
MemoryFault at max(I, 0x1000) and no cell written (D3, D9). -/
def Obligations.BlockStoreWritesRegistersAndKeepsIndex : Prop :=
  ∀ (x : Reg) (s : State), s.mem.wf = true →
    (s.idx.toNat + x.val ≤ 0xFFF → ∃ t, exec (.storeRegs x) s = .next t ∧
      (∀ k : Reg, k.val ≤ x.val → t.mem.get (s.idx.toNat + k.val) = s.reg k) ∧
      SameMemOutside s t s.idx.toNat (x.val + 1) ∧ t.pc = s.pc + 2 ∧
      Frame s t [] [.mem, .pc]) ∧
    (s.idx.toNat + x.val > 0xFFF → exec (.storeRegs x) s = .next (haltedWith s
      ⟨.memoryFault, some 1, s.pc, some (BitVec.ofNat 16 (0xF055 + x.val * 256)),
        some (max s.idx.toNat 0x1000)⟩))

/-- LD Vx, [I] (R165): V[k] from I + k for every k up to x, and I advanced by x + 1; or a
MemoryFault at max(I, 0x1000) and neither a register nor I changed. -/
def Obligations.BlockLoadReadsRegistersAndAdvancesIndex : Prop :=
  ∀ (x : Reg) (s : State),
    (s.idx.toNat + x.val ≤ 0xFFF → ∃ t, exec (.loadRegs x) s = .next t ∧
      (∀ k : Reg, t.reg k =
        if k.val ≤ x.val then s.mem.get (s.idx.toNat + k.val) else s.reg k) ∧
      t.idx.toNat = s.idx.toNat + x.val + 1 ∧ t.pc = s.pc + 2 ∧
      Frame s t ((List.finRange 16).filter fun k => k.val ≤ x.val) [.idx, .pc]) ∧
    (s.idx.toNat + x.val > 0xFFF → exec (.loadRegs x) s = .next (haltedWith s
      ⟨.memoryFault, some 1, s.pc, some (BitVec.ofNat 16 (0xF065 + x.val * 256)),
        some (max s.idx.toNat 0x1000)⟩))

/-- "A store followed by a load at the same I reads back what was stored" (70_reset_and_hazards.md
R247): after both, every register is as it was and I stands after the block (D24). -/
def Obligations.BlockStoreThenLoadReadsBack : Prop :=
  ∀ (x : Reg) (s : State), s.mem.wf = true → s.idx.toNat + x.val ≤ 0xFFF →
    ∃ t u, exec (.storeRegs x) s = .next t ∧ exec (.loadRegs x) t = .next u ∧
      (∀ r, u.reg r = s.reg r) ∧ u.idx.toNat = s.idx.toNat + x.val + 1 ∧ u.mem = t.mem

/-- A store is seen by the very next fetch (20_memory.md R73, D21): when a block store writes the
two bytes that follow it, the next word fetched is V0 and V1. -/
def Obligations.StoreIsSeenByTheNextFetch : Prop :=
  ∀ (x : Reg) (s : State), s.mem.wf = true → s.idx.toNat + x.val ≤ 0xFFF → 1 ≤ x.val →
    s.idx = s.pc + 2 →
    ∃ t, exec (.storeRegs x) s = .next t ∧
      t.fetchWord = .ok (BitVec.ofNat 16 ((s.reg 0).toNat * 256 + (s.reg 1).toNat))

/-! ## Display -/

/-- CLS (43_display.md R170): every pixel 0, the redraw flag set, VF not written. -/
def Obligations.ClearScreenZeroesEveryPixel : Prop :=
  ∀ s : State, ∃ t, exec .cls s = .next t ∧
    (∀ px py, px < 64 → py < 32 → t.pixel px py = false) ∧ t.redraw = true ∧
    t.pc = s.pc + 2 ∧ Frame s t [] [.fb, .redraw, .pc]

/-- DRW (R171, R172; bit order D7, wrap and order D8, D26): each pixel the sprite covers is inverted
and no other, both coordinates wrapping on their own; VF is 1 exactly when a covered pixel was set;
or, when the sprite leaves memory, a MemoryFault at max(I, 0x1000) and nothing else (D3, D9). -/
def Obligations.DrawInvertsCoveredPixelsAndReportsCollision : Prop :=
  ∀ (x y : Reg) (n : Nat) (s : State), n < 16 →
    (n = 0 ∨ s.idx.toNat + n - 1 ≤ 0xFFF → ∃ t, exec (.drw x y n) s = .next t ∧
      (∀ px py, px < 64 → py < 32 →
        (spriteCovers s (s.reg x).toNat (s.reg y).toNat n px py → t.pixel px py = !s.pixel px py) ∧
        (¬ spriteCovers s (s.reg x).toNat (s.reg y).toNat n px py →
          t.pixel px py = s.pixel px py)) ∧
      ((∃ px py, px < 64 ∧ py < 32 ∧
          spriteCovers s (s.reg x).toNat (s.reg y).toNat n px py ∧ s.pixel px py = true) →
        t.reg 15 = 1) ∧
      ((¬ ∃ px py, px < 64 ∧ py < 32 ∧
          spriteCovers s (s.reg x).toNat (s.reg y).toNat n px py ∧ s.pixel px py = true) →
        t.reg 15 = 0) ∧
      t.redraw = true ∧ t.pc = s.pc + 2 ∧ Frame s t [15] [.fb, .redraw, .pc]) ∧
    (1 ≤ n ∧ s.idx.toNat + n - 1 > 0xFFF → exec (.drw x y n) s = .next (haltedWith s
      ⟨.memoryFault, some 1, s.pc, some (BitVec.ofNat 16 (0xD000 + x.val * 256 + y.val * 16 + n)),
        some (max s.idx.toNat 0x1000)⟩))

/-- Drawing the same sprite at the same location twice gives the framebuffer back, and VF is then 1
exactly when a set sprite bit landed on a pixel that was originally clear (R173). Which bit lands on
which pixel is R171's, R172's, the leftmost pixel being bit 7 by D7 (notes/assumptions/17.md). -/
def Obligations.DrawingTwiceRestoresTheFramebuffer : Prop :=
  ∀ (x y : Reg) (n : Nat) (s : State), n < 16 → x ≠ 15 → y ≠ 15 →
    (n = 0 ∨ s.idx.toNat + n - 1 ≤ 0xFFF) →
    ∃ t u, exec (.drw x y n) s = .next t ∧ exec (.drw x y n) t = .next u ∧ u.fb = s.fb ∧
      (u.reg 15 = 1 ∨ u.reg 15 = 0) ∧
      (u.reg 15 = 1 ↔ ∃ px py, px < 64 ∧ py < 32 ∧
        spriteCovers s (s.reg x).toNat (s.reg y).toNat n px py ∧ s.pixel px py = false) ∧
      ((¬ ∃ px py, px < 64 ∧ py < 32 ∧
          spriteCovers s (s.reg x).toNat (s.reg y).toNat n px py) → u.reg 15 = 0)

/-! ## Keyboard and timers -/

/-- SKP and SKNP (44_keyboard_timers.md R180, R181): the pc advances by 4 or 2 by the level of key
V[x]; for an index above 15 a KeyIndexFault and nothing else (D11; labels D10). -/
def Obligations.KeySkipsTestTheKeyLevel : Prop :=
  ∀ (x : Reg) (s : State),
    ((s.reg x).toNat ≤ 15 →
      (∃ t, exec (.skp x) s = .next t ∧ Frame s t [] [.pc] ∧
        t.pc = s.pc + (if s.keys.getLsbD (s.reg x).toNat then 4 else 2)) ∧
      (∃ t, exec (.sknp x) s = .next t ∧ Frame s t [] [.pc] ∧
        t.pc = s.pc + (if s.keys.getLsbD (s.reg x).toNat then 2 else 4))) ∧
    ((s.reg x).toNat > 15 →
      exec (.skp x) s = .next (haltedWith s
      ⟨.keyIndexFault, none, s.pc, some (BitVec.ofNat 16 (0xE09E + x.val * 256)),
        some (s.reg x).toNat⟩) ∧
      exec (.sknp x) s = .next (haltedWith s
      ⟨.keyIndexFault, none, s.pc, some (BitVec.ofNat 16 (0xE0A1 + x.val * 256)),
        some (s.reg x).toNat⟩))

/-- LD Vx, K (R182): with no key pressed nothing changes at all; with some key pressed V[x] becomes
the least pressed index (D12) and the pc advances by 2. -/
def Obligations.KeyWaitStoresTheLeastPressedKey : Prop :=
  ∀ (x : Reg) (s : State),
    ((∀ j, j < 16 → s.keys.getLsbD j = false) → exec (.ldVxK x) s = .next s) ∧
    (∀ k, k < 16 → s.keys.getLsbD k = true → (∀ j, j < k → s.keys.getLsbD j = false) →
      ∃ t, exec (.ldVxK x) s = .next t ∧ (t.reg x).toNat = k ∧ t.pc = s.pc + 2 ∧
        Frame s t [x] [.pc])

/-- LD Vx, DT; LD DT, Vx; LD ST, Vx (R183 to R185): the moved value, and nothing else but the pc. -/
def Obligations.TimerMovesCopyTheByte : Prop :=
  ∀ (x : Reg) (s : State),
    (∃ t, exec (.ldVxDT x) s = .next t ∧ t.reg x = s.dt ∧ t.pc = s.pc + 2 ∧
      Frame s t [x] [.pc]) ∧
    (∃ t, exec (.ldDTVx x) s = .next t ∧ t.dt = s.reg x ∧ t.pc = s.pc + 2 ∧
      Frame s t [] [.dt, .pc]) ∧
    (∃ t, exec (.ldSTVx x) s = .next t ∧ t.st = s.reg x ∧ t.pc = s.pc + 2 ∧
      Frame s t [] [.st, .pc])

/-- TimerTick (60_exceptions.md R215): both timers count down and stop at 0, the output says whether
ST was non-zero before, and nothing else changes; with a fault recorded it is not enabled. -/
def Obligations.TimerTickCountsBothTimersDown : Prop :=
  ∀ s : State,
    (s.fault = none → ∃ t b, timerTick s = .next (t, b) ∧
      (b = true ↔ s.st ≠ 0) ∧ t.dt.toNat = s.dt.toNat - 1 ∧ t.st.toNat = s.st.toNat - 1 ∧
      Frame s t [] [.dt, .st]) ∧
    (s.fault ≠ none → ∀ p, timerTick s ≠ .next p)

/-- "A sound timer set to v and not rewritten produces exactly v tone signals in the next v ticks
and none after" (R216, D27). -/
def Obligations.SoundTimerGivesExactlyItsCountOfTones : Prop :=
  ∀ (font : Font) (n : Nat) (s : State), s.fault = none →
    ∃ t, runSchedule font (List.replicate n .timerTick) s = .next (t,
        List.replicate (min n s.st.toNat) (.tone true) ++
        List.replicate (n - s.st.toNat) (.tone false)) ∧
      t.st.toNat = s.st.toNat - n ∧ t.dt.toNat = s.dt.toNat - n

/-! ## Host, reset and boot -/

/-- LoadProgram (R220, D18): a program that fits is copied to 0x200 upward and nothing else changes;
a longer one changes only the fault record (R203; labels D10). -/
def Obligations.LoadProgramCopiesOrFaults : Prop :=
  ∀ (font : Font) (bytes : List Byte) (s : State), s.mem.wf = true →
    (bytes.length ≤ 3584 → ∃ t, transition font (.loadProgram bytes) s = .next (t, .nothing) ∧
      (∀ k (h : k < bytes.length), t.mem.get (0x200 + k) = bytes[k]) ∧
      SameMemOutside s t 0x200 bytes.length ∧ Frame s t [] [.mem]) ∧
    (bytes.length > 3584 → transition font (.loadProgram bytes) s = .next (haltedWith s
      ⟨.loadFault, none, s.pc, none, some bytes.length⟩, .nothing))

/-- SetKeys, AckRedraw and the reads (R219, R221, R222, R223): the vector wholesale, the redraw flag
cleared, the value read; and nothing else changes. -/
def Obligations.HostTransitionsTouchOnlyTheirComponent : Prop :=
  ∀ (font : Font) (s : State) (vector : KeyVector),
    (∃ t, transition font (.setKeys vector) s = .next (t, .nothing) ∧ t.keys = vector ∧
      Frame s t [] [.keys]) ∧
    (∃ t, transition font .ackRedraw s = .next (t, .nothing) ∧ t.redraw = false ∧
      Frame s t [] [.redraw]) ∧
    transition font .readFramebuffer s = .next (s, .framebuffer s.fb) ∧
    transition font .readRedraw s = .next (s, .redraw s.redraw) ∧
    transition font .readFault s = .next (s, .fault s.fault)

/-- Reset (70_reset_and_hazards.md R240, 10_state.md R39; D4, D6, D17): from every state, every
component of R39 at its reset value, memory holding the parameter FONT, whatever it is (R6); a second
Reset changes nothing (R243). -/
def Obligations.ResetReinitialisesEveryComponent : Prop :=
  ∀ (font : Font) (s : State), ∃ t, transition font .reset s = .next (t, .nothing) ∧
    (∀ k (h : k < 80), t.mem.get (0x050 + k) = font[k]) ∧
    (∀ a, a < 0x050 ∨ 0x0A0 ≤ a → t.mem.get a = 0) ∧
    (∀ r, t.reg r = 0) ∧ t.idx = 0 ∧ t.pc = 0x200 ∧ t.sp = 0 ∧
    (∀ k : Fin 16, t.stack[k.val] = 0) ∧ t.dt = 0 ∧ t.st = 0 ∧ t.keys = 0 ∧ t.fb = 0 ∧
    t.redraw = false ∧ t.fault = none ∧ transition font .reset t = .next (t, .nothing)

/-- A machine stepped after Reset with nothing loaded halts with DecodeFault at 0x200 (R245
[derived]), whatever FONT is; `State.reset` is the state after Reset with the default FONT (R6,
D6). -/
def Obligations.StepAfterResetHaltsOnClearedMemory : Prop :=
  State.resetWith defaultFont = State.reset ∧
  ∀ font : Font, step (State.resetWith font) = .next (haltedWith (State.resetWith font)
      ⟨.decodeFault, none, 0x200, some 0x0000, none⟩)

/-- After Reset and LoadProgram the first Step runs the instruction in the program's first two bytes
(R241, R244; D4). -/
def Obligations.FirstStepRunsTheLoadedProgram : Prop :=
  ∀ (font : Font) (s : State) (hi lo : Byte) (rest : List Byte) (i : Instr), rest.length ≤ 3582 →
    decode (BitVec.ofNat 16 (hi.toNat * 256 + lo.toNat)) = .ok i →
    step (loadProgram (hi :: lo :: rest) (hostReset font s)) =
      exec i (loadProgram (hi :: lo :: rest) (hostReset font s))
end

