-- ==== Sys2Proof/Laws/State.lean ====
section
/-! SUPPORT. One lemma per field per named update of the state, each true by unfolding, so that no
later proof unfolds a record update; and how each update changes what `State.reg` reads. -/

namespace Sys2Proof.Machine

variable (s : State)

/-! ## `State.writeV` -/

@[simp] theorem State.writeV_mem (x : Reg) (n : Nat) : (s.writeV x n).mem = s.mem := rfl
@[simp] theorem State.writeV_v (x : Reg) (n : Nat) : (s.writeV x n).v = s.v.set x.val (BitVec.ofNat 8 n) := rfl
@[simp] theorem State.writeV_idx (x : Reg) (n : Nat) : (s.writeV x n).idx = s.idx := rfl
@[simp] theorem State.writeV_pc (x : Reg) (n : Nat) : (s.writeV x n).pc = s.pc := rfl
@[simp] theorem State.writeV_stack (x : Reg) (n : Nat) : (s.writeV x n).stack = s.stack := rfl
@[simp] theorem State.writeV_sp (x : Reg) (n : Nat) : (s.writeV x n).sp = s.sp := rfl
@[simp] theorem State.writeV_dt (x : Reg) (n : Nat) : (s.writeV x n).dt = s.dt := rfl
@[simp] theorem State.writeV_st (x : Reg) (n : Nat) : (s.writeV x n).st = s.st := rfl
@[simp] theorem State.writeV_keys (x : Reg) (n : Nat) : (s.writeV x n).keys = s.keys := rfl
@[simp] theorem State.writeV_fb (x : Reg) (n : Nat) : (s.writeV x n).fb = s.fb := rfl
@[simp] theorem State.writeV_redraw (x : Reg) (n : Nat) : (s.writeV x n).redraw = s.redraw := rfl
@[simp] theorem State.writeV_fault (x : Reg) (n : Nat) : (s.writeV x n).fault = s.fault := rfl
@[simp] theorem State.writeV_draws (x : Reg) (n : Nat) : (s.writeV x n).draws = s.draws := rfl

/-! ## `State.writeFirst` -/

@[simp] theorem State.writeFirst_mem (bytes : List Byte) : (s.writeFirst bytes).mem = s.mem := rfl
@[simp] theorem State.writeFirst_v (bytes : List Byte) : (s.writeFirst bytes).v = Vector.ofFn fun r => bytes.getD r.val (s.reg r) := rfl
@[simp] theorem State.writeFirst_idx (bytes : List Byte) : (s.writeFirst bytes).idx = s.idx := rfl
@[simp] theorem State.writeFirst_pc (bytes : List Byte) : (s.writeFirst bytes).pc = s.pc := rfl
@[simp] theorem State.writeFirst_stack (bytes : List Byte) : (s.writeFirst bytes).stack = s.stack := rfl
@[simp] theorem State.writeFirst_sp (bytes : List Byte) : (s.writeFirst bytes).sp = s.sp := rfl
@[simp] theorem State.writeFirst_dt (bytes : List Byte) : (s.writeFirst bytes).dt = s.dt := rfl
@[simp] theorem State.writeFirst_st (bytes : List Byte) : (s.writeFirst bytes).st = s.st := rfl
@[simp] theorem State.writeFirst_keys (bytes : List Byte) : (s.writeFirst bytes).keys = s.keys := rfl
@[simp] theorem State.writeFirst_fb (bytes : List Byte) : (s.writeFirst bytes).fb = s.fb := rfl
@[simp] theorem State.writeFirst_redraw (bytes : List Byte) : (s.writeFirst bytes).redraw = s.redraw := rfl
@[simp] theorem State.writeFirst_fault (bytes : List Byte) : (s.writeFirst bytes).fault = s.fault := rfl
@[simp] theorem State.writeFirst_draws (bytes : List Byte) : (s.writeFirst bytes).draws = s.draws := rfl

/-! ## `State.writeI` -/

@[simp] theorem State.writeI_mem (n : Nat) : (s.writeI n).mem = s.mem := rfl
@[simp] theorem State.writeI_v (n : Nat) : (s.writeI n).v = s.v := rfl
@[simp] theorem State.writeI_idx (n : Nat) : (s.writeI n).idx = BitVec.ofNat 16 n := rfl
@[simp] theorem State.writeI_pc (n : Nat) : (s.writeI n).pc = s.pc := rfl
@[simp] theorem State.writeI_stack (n : Nat) : (s.writeI n).stack = s.stack := rfl
@[simp] theorem State.writeI_sp (n : Nat) : (s.writeI n).sp = s.sp := rfl
@[simp] theorem State.writeI_dt (n : Nat) : (s.writeI n).dt = s.dt := rfl
@[simp] theorem State.writeI_st (n : Nat) : (s.writeI n).st = s.st := rfl
@[simp] theorem State.writeI_keys (n : Nat) : (s.writeI n).keys = s.keys := rfl
@[simp] theorem State.writeI_fb (n : Nat) : (s.writeI n).fb = s.fb := rfl
@[simp] theorem State.writeI_redraw (n : Nat) : (s.writeI n).redraw = s.redraw := rfl
@[simp] theorem State.writeI_fault (n : Nat) : (s.writeI n).fault = s.fault := rfl
@[simp] theorem State.writeI_draws (n : Nat) : (s.writeI n).draws = s.draws := rfl
@[simp] theorem State.writeI_reg (n : Nat) (r : Reg) : (s.writeI n).reg r = s.reg r := rfl

/-! ## `State.writeDT` -/

@[simp] theorem State.writeDT_mem (b : Byte) : (s.writeDT b).mem = s.mem := rfl
@[simp] theorem State.writeDT_v (b : Byte) : (s.writeDT b).v = s.v := rfl
@[simp] theorem State.writeDT_idx (b : Byte) : (s.writeDT b).idx = s.idx := rfl
@[simp] theorem State.writeDT_pc (b : Byte) : (s.writeDT b).pc = s.pc := rfl
@[simp] theorem State.writeDT_stack (b : Byte) : (s.writeDT b).stack = s.stack := rfl
@[simp] theorem State.writeDT_sp (b : Byte) : (s.writeDT b).sp = s.sp := rfl
@[simp] theorem State.writeDT_dt (b : Byte) : (s.writeDT b).dt = b := rfl
@[simp] theorem State.writeDT_st (b : Byte) : (s.writeDT b).st = s.st := rfl
@[simp] theorem State.writeDT_keys (b : Byte) : (s.writeDT b).keys = s.keys := rfl
@[simp] theorem State.writeDT_fb (b : Byte) : (s.writeDT b).fb = s.fb := rfl
@[simp] theorem State.writeDT_redraw (b : Byte) : (s.writeDT b).redraw = s.redraw := rfl
@[simp] theorem State.writeDT_fault (b : Byte) : (s.writeDT b).fault = s.fault := rfl
@[simp] theorem State.writeDT_draws (b : Byte) : (s.writeDT b).draws = s.draws := rfl
@[simp] theorem State.writeDT_reg (b : Byte) (r : Reg) : (s.writeDT b).reg r = s.reg r := rfl

/-! ## `State.writeST` -/

@[simp] theorem State.writeST_mem (b : Byte) : (s.writeST b).mem = s.mem := rfl
@[simp] theorem State.writeST_v (b : Byte) : (s.writeST b).v = s.v := rfl
@[simp] theorem State.writeST_idx (b : Byte) : (s.writeST b).idx = s.idx := rfl
@[simp] theorem State.writeST_pc (b : Byte) : (s.writeST b).pc = s.pc := rfl
@[simp] theorem State.writeST_stack (b : Byte) : (s.writeST b).stack = s.stack := rfl
@[simp] theorem State.writeST_sp (b : Byte) : (s.writeST b).sp = s.sp := rfl
@[simp] theorem State.writeST_dt (b : Byte) : (s.writeST b).dt = s.dt := rfl
@[simp] theorem State.writeST_st (b : Byte) : (s.writeST b).st = b := rfl
@[simp] theorem State.writeST_keys (b : Byte) : (s.writeST b).keys = s.keys := rfl
@[simp] theorem State.writeST_fb (b : Byte) : (s.writeST b).fb = s.fb := rfl
@[simp] theorem State.writeST_redraw (b : Byte) : (s.writeST b).redraw = s.redraw := rfl
@[simp] theorem State.writeST_fault (b : Byte) : (s.writeST b).fault = s.fault := rfl
@[simp] theorem State.writeST_draws (b : Byte) : (s.writeST b).draws = s.draws := rfl
@[simp] theorem State.writeST_reg (b : Byte) (r : Reg) : (s.writeST b).reg r = s.reg r := rfl

/-! ## `State.withMem` -/

@[simp] theorem State.withMem_mem (m : Memory) : (s.withMem m).mem = m := rfl
@[simp] theorem State.withMem_v (m : Memory) : (s.withMem m).v = s.v := rfl
@[simp] theorem State.withMem_idx (m : Memory) : (s.withMem m).idx = s.idx := rfl
@[simp] theorem State.withMem_pc (m : Memory) : (s.withMem m).pc = s.pc := rfl
@[simp] theorem State.withMem_stack (m : Memory) : (s.withMem m).stack = s.stack := rfl
@[simp] theorem State.withMem_sp (m : Memory) : (s.withMem m).sp = s.sp := rfl
@[simp] theorem State.withMem_dt (m : Memory) : (s.withMem m).dt = s.dt := rfl
@[simp] theorem State.withMem_st (m : Memory) : (s.withMem m).st = s.st := rfl
@[simp] theorem State.withMem_keys (m : Memory) : (s.withMem m).keys = s.keys := rfl
@[simp] theorem State.withMem_fb (m : Memory) : (s.withMem m).fb = s.fb := rfl
@[simp] theorem State.withMem_redraw (m : Memory) : (s.withMem m).redraw = s.redraw := rfl
@[simp] theorem State.withMem_fault (m : Memory) : (s.withMem m).fault = s.fault := rfl
@[simp] theorem State.withMem_draws (m : Memory) : (s.withMem m).draws = s.draws := rfl
@[simp] theorem State.withMem_reg (m : Memory) (r : Reg) : (s.withMem m).reg r = s.reg r := rfl

/-! ## `State.showFrame` -/

@[simp] theorem State.showFrame_mem (f : Framebuffer) : (s.showFrame f).mem = s.mem := rfl
@[simp] theorem State.showFrame_v (f : Framebuffer) : (s.showFrame f).v = s.v := rfl
@[simp] theorem State.showFrame_idx (f : Framebuffer) : (s.showFrame f).idx = s.idx := rfl
@[simp] theorem State.showFrame_pc (f : Framebuffer) : (s.showFrame f).pc = s.pc := rfl
@[simp] theorem State.showFrame_stack (f : Framebuffer) : (s.showFrame f).stack = s.stack := rfl
@[simp] theorem State.showFrame_sp (f : Framebuffer) : (s.showFrame f).sp = s.sp := rfl
@[simp] theorem State.showFrame_dt (f : Framebuffer) : (s.showFrame f).dt = s.dt := rfl
@[simp] theorem State.showFrame_st (f : Framebuffer) : (s.showFrame f).st = s.st := rfl
@[simp] theorem State.showFrame_keys (f : Framebuffer) : (s.showFrame f).keys = s.keys := rfl
@[simp] theorem State.showFrame_fb (f : Framebuffer) : (s.showFrame f).fb = f := rfl
@[simp] theorem State.showFrame_redraw (f : Framebuffer) : (s.showFrame f).redraw = true := rfl
@[simp] theorem State.showFrame_fault (f : Framebuffer) : (s.showFrame f).fault = s.fault := rfl
@[simp] theorem State.showFrame_draws (f : Framebuffer) : (s.showFrame f).draws = s.draws := rfl
@[simp] theorem State.showFrame_reg (f : Framebuffer) (r : Reg) : (s.showFrame f).reg r = s.reg r := rfl

/-! ## `State.withStack` -/

@[simp] theorem State.withStack_mem (k : Vector Word 16) (d : Fin 17) :
    (s.withStack k d).mem = s.mem := rfl
@[simp] theorem State.withStack_v (k : Vector Word 16) (d : Fin 17) :
    (s.withStack k d).v = s.v := rfl
@[simp] theorem State.withStack_idx (k : Vector Word 16) (d : Fin 17) :
    (s.withStack k d).idx = s.idx := rfl
@[simp] theorem State.withStack_pc (k : Vector Word 16) (d : Fin 17) :
    (s.withStack k d).pc = s.pc := rfl
@[simp] theorem State.withStack_stack (k : Vector Word 16) (d : Fin 17) :
    (s.withStack k d).stack = k := rfl
@[simp] theorem State.withStack_sp (k : Vector Word 16) (d : Fin 17) :
    (s.withStack k d).sp = d := rfl
@[simp] theorem State.withStack_dt (k : Vector Word 16) (d : Fin 17) :
    (s.withStack k d).dt = s.dt := rfl
@[simp] theorem State.withStack_st (k : Vector Word 16) (d : Fin 17) :
    (s.withStack k d).st = s.st := rfl
@[simp] theorem State.withStack_keys (k : Vector Word 16) (d : Fin 17) :
    (s.withStack k d).keys = s.keys := rfl
@[simp] theorem State.withStack_fb (k : Vector Word 16) (d : Fin 17) :
    (s.withStack k d).fb = s.fb := rfl
@[simp] theorem State.withStack_redraw (k : Vector Word 16) (d : Fin 17) :
    (s.withStack k d).redraw = s.redraw := rfl
@[simp] theorem State.withStack_fault (k : Vector Word 16) (d : Fin 17) :
    (s.withStack k d).fault = s.fault := rfl
@[simp] theorem State.withStack_draws (k : Vector Word 16) (d : Fin 17) :
    (s.withStack k d).draws = s.draws := rfl
@[simp] theorem State.withStack_reg (k : Vector Word 16) (d : Fin 17) (r : Reg) :
    (s.withStack k d).reg r = s.reg r := rfl

/-! ## `State.jumpTo` -/

@[simp] theorem State.jumpTo_mem (n : Nat) : (s.jumpTo n).mem = s.mem := rfl
@[simp] theorem State.jumpTo_v (n : Nat) : (s.jumpTo n).v = s.v := rfl
@[simp] theorem State.jumpTo_idx (n : Nat) : (s.jumpTo n).idx = s.idx := rfl
@[simp] theorem State.jumpTo_pc (n : Nat) : (s.jumpTo n).pc = BitVec.ofNat 16 n := rfl
@[simp] theorem State.jumpTo_stack (n : Nat) : (s.jumpTo n).stack = s.stack := rfl
@[simp] theorem State.jumpTo_sp (n : Nat) : (s.jumpTo n).sp = s.sp := rfl
@[simp] theorem State.jumpTo_dt (n : Nat) : (s.jumpTo n).dt = s.dt := rfl
@[simp] theorem State.jumpTo_st (n : Nat) : (s.jumpTo n).st = s.st := rfl
@[simp] theorem State.jumpTo_keys (n : Nat) : (s.jumpTo n).keys = s.keys := rfl
@[simp] theorem State.jumpTo_fb (n : Nat) : (s.jumpTo n).fb = s.fb := rfl
@[simp] theorem State.jumpTo_redraw (n : Nat) : (s.jumpTo n).redraw = s.redraw := rfl
@[simp] theorem State.jumpTo_fault (n : Nat) : (s.jumpTo n).fault = s.fault := rfl
@[simp] theorem State.jumpTo_draws (n : Nat) : (s.jumpTo n).draws = s.draws := rfl
@[simp] theorem State.jumpTo_reg (n : Nat) (r : Reg) : (s.jumpTo n).reg r = s.reg r := rfl

/-! ## `State.advance` -/

@[simp] theorem State.advance_mem : (s.advance).mem = s.mem := rfl
@[simp] theorem State.advance_v : (s.advance).v = s.v := rfl
@[simp] theorem State.advance_idx : (s.advance).idx = s.idx := rfl
@[simp] theorem State.advance_pc : (s.advance).pc = BitVec.ofNat 16 (s.pc.toNat + 2) := rfl
@[simp] theorem State.advance_stack : (s.advance).stack = s.stack := rfl
@[simp] theorem State.advance_sp : (s.advance).sp = s.sp := rfl
@[simp] theorem State.advance_dt : (s.advance).dt = s.dt := rfl
@[simp] theorem State.advance_st : (s.advance).st = s.st := rfl
@[simp] theorem State.advance_keys : (s.advance).keys = s.keys := rfl
@[simp] theorem State.advance_fb : (s.advance).fb = s.fb := rfl
@[simp] theorem State.advance_redraw : (s.advance).redraw = s.redraw := rfl
@[simp] theorem State.advance_fault : (s.advance).fault = s.fault := rfl
@[simp] theorem State.advance_draws : (s.advance).draws = s.draws := rfl
@[simp] theorem State.advance_reg (r : Reg) : (s.advance).reg r = s.reg r := rfl

/-! ## `State.raise` -/

@[simp] theorem State.raise_mem (k : FaultKind) (c : Option Nat) (w : Option Word) (d : Option Nat) :
    (s.raise k c w d).mem = s.mem := rfl
@[simp] theorem State.raise_v (k : FaultKind) (c : Option Nat) (w : Option Word) (d : Option Nat) :
    (s.raise k c w d).v = s.v := rfl
@[simp] theorem State.raise_idx (k : FaultKind) (c : Option Nat) (w : Option Word) (d : Option Nat) :
    (s.raise k c w d).idx = s.idx := rfl
@[simp] theorem State.raise_pc (k : FaultKind) (c : Option Nat) (w : Option Word) (d : Option Nat) :
    (s.raise k c w d).pc = s.pc := rfl
@[simp] theorem State.raise_stack (k : FaultKind) (c : Option Nat) (w : Option Word) (d : Option Nat) :
    (s.raise k c w d).stack = s.stack := rfl
@[simp] theorem State.raise_sp (k : FaultKind) (c : Option Nat) (w : Option Word) (d : Option Nat) :
    (s.raise k c w d).sp = s.sp := rfl
@[simp] theorem State.raise_dt (k : FaultKind) (c : Option Nat) (w : Option Word) (d : Option Nat) :
    (s.raise k c w d).dt = s.dt := rfl
@[simp] theorem State.raise_st (k : FaultKind) (c : Option Nat) (w : Option Word) (d : Option Nat) :
    (s.raise k c w d).st = s.st := rfl
@[simp] theorem State.raise_keys (k : FaultKind) (c : Option Nat) (w : Option Word) (d : Option Nat) :
    (s.raise k c w d).keys = s.keys := rfl
@[simp] theorem State.raise_fb (k : FaultKind) (c : Option Nat) (w : Option Word) (d : Option Nat) :
    (s.raise k c w d).fb = s.fb := rfl
@[simp] theorem State.raise_redraw (k : FaultKind) (c : Option Nat) (w : Option Word) (d : Option Nat) :
    (s.raise k c w d).redraw = s.redraw := rfl
@[simp] theorem State.raise_fault (k : FaultKind) (c : Option Nat) (w : Option Word) (d : Option Nat) :
    (s.raise k c w d).fault = some { kind := k, sub := c, pc := s.pc, word := w, info := d } := rfl
@[simp] theorem State.raise_draws (k : FaultKind) (c : Option Nat) (w : Option Word) (d : Option Nat) :
    (s.raise k c w d).draws = s.draws := rfl
@[simp] theorem State.raise_reg (k : FaultKind) (c : Option Nat) (w : Option Word) (d : Option Nat) (r : Reg) : (s.raise k c w d).reg r = s.reg r := rfl

/-! ## `State.tickTimers` -/

@[simp] theorem State.tickTimers_mem : (s.tickTimers).mem = s.mem := rfl
@[simp] theorem State.tickTimers_v : (s.tickTimers).v = s.v := rfl
@[simp] theorem State.tickTimers_idx : (s.tickTimers).idx = s.idx := rfl
@[simp] theorem State.tickTimers_pc : (s.tickTimers).pc = s.pc := rfl
@[simp] theorem State.tickTimers_stack : (s.tickTimers).stack = s.stack := rfl
@[simp] theorem State.tickTimers_sp : (s.tickTimers).sp = s.sp := rfl
@[simp] theorem State.tickTimers_dt : (s.tickTimers).dt = countDown s.dt := rfl
@[simp] theorem State.tickTimers_st : (s.tickTimers).st = countDown s.st := rfl
@[simp] theorem State.tickTimers_keys : (s.tickTimers).keys = s.keys := rfl
@[simp] theorem State.tickTimers_fb : (s.tickTimers).fb = s.fb := rfl
@[simp] theorem State.tickTimers_redraw : (s.tickTimers).redraw = s.redraw := rfl
@[simp] theorem State.tickTimers_fault : (s.tickTimers).fault = s.fault := rfl
@[simp] theorem State.tickTimers_draws : (s.tickTimers).draws = s.draws := rfl
@[simp] theorem State.tickTimers_reg (r : Reg) : (s.tickTimers).reg r = s.reg r := rfl

/-! ## Conditional skips -/

/-- A skip changes the program counter only. -/
theorem State.skipIf_eq (c : Bool) :
    s.skipIf c = s.jumpTo (s.pc.toNat + if c then 4 else 2) := by
  cases c <;> rfl

/-! ## Reading a register after an update -/

/-- A masked write is read back by its register and by no other (10_state.md R21). -/
theorem State.reg_writeV (x r : Reg) (n : Nat) :
    (s.writeV x n).reg r = if r = x then BitVec.ofNat 8 n else s.reg r := by
  unfold State.reg
  rw [State.writeV_v, Vector.getElem_set]
  by_cases h : r = x
  · simp [h]
  · rw [if_neg h, if_neg fun e => h (Fin.ext e.symm)]

@[simp] theorem State.reg_writeV_same (x : Reg) (n : Nat) :
    (s.writeV x n).reg x = BitVec.ofNat 8 n := by
  rw [s.reg_writeV, if_pos rfl]

theorem State.reg_writeV_of_ne (x r : Reg) (n : Nat) (h : r ≠ x) :
    (s.writeV x n).reg r = s.reg r := by
  rw [s.reg_writeV, if_neg h]

/-- A block load is read back register by register (42_index_memory.md R165). -/
@[simp] theorem State.reg_writeFirst (bytes : List Byte) (r : Reg) :
    (s.writeFirst bytes).reg r = bytes.getD r.val (s.reg r) := by
  unfold State.reg State.writeFirst
  simp [State.reg]

/-- The bytes of a block store are the registers in order (42_index_memory.md R164). -/
theorem State.length_regsUpTo (x : Reg) : (s.regsUpTo x).length = x.val + 1 := by
  simp [State.regsUpTo]

theorem State.getElem_regsUpTo (x r : Reg) (h : r.val < (s.regsUpTo x).length) :
    (s.regsUpTo x)[r.val] = s.reg r := by
  simp [State.regsUpTo, State.reg]

/-- Two states with the same components are the same state. -/
theorem State.ext_parts {s t : State} (hmem : s.mem = t.mem) (hv : s.v = t.v)
    (hidx : s.idx = t.idx) (hpc : s.pc = t.pc) (hstack : s.stack = t.stack) (hsp : s.sp = t.sp)
    (hdt : s.dt = t.dt) (hst : s.st = t.st) (hkeys : s.keys = t.keys) (hfb : s.fb = t.fb)
    (hredraw : s.redraw = t.redraw) (hfault : s.fault = t.fault) (hdraws : s.draws = t.draws) :
    s = t := by
  cases s; cases t; simp_all

/-- Registers that read the same are the same register file. -/
theorem State.v_ext {s t : State} (h : ∀ r, s.reg r = t.reg r) : s.v = t.v :=
  Vector.ext fun i hi => h ⟨i, hi⟩

end Sys2Proof.Machine
end

