-- ==== Sys2Proof/Laws/Memory.lean ====
section
/-! SUPPORT. The laws of memory: read after write, a write leaves every other cell alone, every
operation keeps the canonical form; and the block operations in closed form. -/

namespace Sys2Proof.Machine

/-! ## One cell -/

theorem Memory.get_set_of_ne (m : Memory) {a c : Nat} (b : Byte) (h : c ≠ a) :
    (m.set a b).get c = m.get c := by
  induction m with
  | nil =>
    unfold Memory.set
    split
    · rfl
    · simp [Memory.get, Ne.symm h]
  | cons e rest ih =>
    obtain ⟨k, d⟩ := e
    unfold Memory.set
    split_ifs with h1 h2 h2 h3
    · rfl
    · simp [Memory.get, Ne.symm h]
    · subst h2; simp [Memory.get, Ne.symm h]
    · subst h2; simp [Memory.get, Ne.symm h]
    · simp [Memory.get, ih]

/-- No entry of a memory in canonical form from `lo` on lies below `lo`. -/
theorem Memory.get_of_wfFrom {lo a : Nat} (m : Memory) (hwf : Memory.wfFrom lo m = true)
    (h : a < lo) : m.get a = Memory.initial a := by
  induction m generalizing lo with
  | nil => rfl
  | cons e rest ih =>
    obtain ⟨k, d⟩ := e
    simp only [Memory.wfFrom, Bool.and_eq_true, decide_eq_true_eq] at hwf
    obtain ⟨⟨⟨hk, -⟩, -⟩, hrest⟩ := hwf
    rw [Memory.get, if_neg (by omega), ih hrest (by omega)]

theorem Memory.wfFrom_mono {lo lo' : Nat} (m : Memory) (hwf : Memory.wfFrom lo m = true)
    (h : lo' ≤ lo) : Memory.wfFrom lo' m = true := by
  cases m with
  | nil => rfl
  | cons e rest =>
    simp only [Memory.wfFrom, Bool.and_eq_true, decide_eq_true_eq] at hwf ⊢
    exact ⟨⟨⟨by omega, hwf.1.1.2⟩, hwf.1.2⟩, hwf.2⟩

theorem Memory.get_set_same_from {lo : Nat} (m : Memory) (a : Nat) (b : Byte)
    (hwf : Memory.wfFrom lo m = true) : (m.set a b).get a = b := by
  induction m generalizing lo with
  | nil =>
    unfold Memory.set
    split
    · rename_i h; simp [Memory.get, h]
    · simp [Memory.get]
  | cons e rest ih =>
    obtain ⟨k, d⟩ := e
    have hall := hwf
    simp only [Memory.wfFrom, Bool.and_eq_true, decide_eq_true_eq] at hwf
    obtain ⟨⟨⟨hk, -⟩, -⟩, hrest⟩ := hwf
    unfold Memory.set
    split_ifs with h1 h2 h2 h3
    · rw [Memory.get, if_neg (by omega), Memory.get_of_wfFrom rest hrest (by omega), h2]
    · simp [Memory.get]
    · subst h2; rw [Memory.get_of_wfFrom rest hrest (by omega), h3]
    · simp [Memory.get]
    · rw [Memory.get, if_neg (by omega), ih hrest]

/-- A read after a write to the same cell gives the value written (20_memory.md R68). -/
theorem Memory.get_set_same (m : Memory) (a : Nat) (b : Byte) (hwf : m.wf = true) :
    (m.set a b).get a = b := Memory.get_set_same_from m a b hwf

theorem Memory.wfFrom_set {lo : Nat} (m : Memory) (a : Nat) (b : Byte) (ha : a < 4096)
    (hlo : lo ≤ a) (hwf : Memory.wfFrom lo m = true) : Memory.wfFrom lo (m.set a b) = true := by
  induction m generalizing lo with
  | nil =>
    unfold Memory.set
    split
    · rfl
    · rename_i h; simp [Memory.wfFrom, ha, hlo, h]
  | cons e rest ih =>
    obtain ⟨k, d⟩ := e
    have hall := hwf
    simp only [Memory.wfFrom, Bool.and_eq_true, decide_eq_true_eq] at hwf
    obtain ⟨⟨⟨hk, hk'⟩, hd⟩, hrest⟩ := hwf
    unfold Memory.set
    split_ifs with h1 h2 h2 h3
    · exact hall
    · simp [Memory.wfFrom, ha, hlo, h2, hd, hrest]
      exact ⟨by omega, hk'⟩
    · exact Memory.wfFrom_mono rest hrest (by omega)
    · subst h2; simp [Memory.wfFrom, ha, hlo, h3, hrest]
    · have := ih (lo := k + 1) (by omega) hrest
      simp only [Memory.wfFrom, Bool.and_eq_true, decide_eq_true_eq]
      exact ⟨⟨⟨hk, hk'⟩, hd⟩, this⟩

/-- A write keeps the canonical form. -/
theorem Memory.wf_set (m : Memory) (a : Nat) (b : Byte) (ha : a < 4096) (hwf : m.wf = true) :
    (m.set a b).wf = true := Memory.wfFrom_set m a b ha (Nat.zero_le a) hwf

theorem Memory.wf_reset : State.reset.mem.wf = true := rfl

/-! ## Checked access -/

theorem Memory.read_of_lt (m : Memory) {a : Nat} (h : a < 4096) : m.read a = .ok (m.get a) :=
  if_pos h

theorem Memory.read_of_ge (m : Memory) {a : Nat} (h : 4096 ≤ a) : m.read a = .error a :=
  if_neg (Nat.not_lt.2 h)

/-! ## Blocks -/

/-- A block in range reads its cells in order (20_memory.md R66). -/
theorem Memory.readBlock_ok (m : Memory) (a n : Nat) (h : n = 0 ∨ a + n ≤ 4096) :
    m.readBlock a n = .ok ((List.range n).map fun k => m.get (a + k)) := by
  induction n generalizing a with
  | zero => rfl
  | succ n ih =>
    have ha : a < 4096 := by omega
    rw [Memory.readBlock, m.read_of_lt ha, ih (a + 1) (by omega)]
    simp [List.range_succ_eq_map, List.map_map, Function.comp_def, Nat.add_assoc, Nat.add_comm 1]

/-- A block that leaves memory gives its first address out of range (60_exceptions.md R208). -/
theorem Memory.readBlock_error (m : Memory) (a n : Nat) (h : 1 ≤ n) (h' : 4096 < a + n) :
    m.readBlock a n = .error (max a 4096) := by
  induction n generalizing a with
  | zero => omega
  | succ n ih =>
    by_cases ha : a < 4096
    · rw [Memory.readBlock, m.read_of_lt ha, ih (a + 1) (by omega) (by omega)]
      simp only [Except.error.injEq]; omega
    · rw [Memory.readBlock, m.read_of_ge (by omega)]
      simp only [Except.error.injEq]; omega

theorem Memory.writeBlock_ok (m : Memory) (a : Nat) (bs : List Byte)
    (h : bs = [] ∨ a + bs.length ≤ 4096) : m.writeBlock a bs = .ok (m.setBlock a bs) := by
  induction bs generalizing m a with
  | nil => rfl
  | cons b bs ih =>
    have hl : a + (bs.length + 1) ≤ 4096 := by simpa using h
    rw [Memory.writeBlock, Memory.write, if_pos (show a < 4096 by omega)]
    exact ih (m.set a b) (a + 1) (.inr (by omega))

theorem Memory.writeBlock_error (m : Memory) (a : Nat) (bs : List Byte) (h : bs ≠ [])
    (h' : 4096 < a + bs.length) : m.writeBlock a bs = .error (max a 4096) := by
  induction bs generalizing m a with
  | nil => exact absurd rfl h
  | cons b bs ih =>
    have hl : 4096 < a + (bs.length + 1) := by simpa using h'
    by_cases ha : a < 4096
    · rw [Memory.writeBlock, Memory.write, if_pos (show a < 4096 from ha)]
      have hne : bs ≠ [] := by rintro rfl; simp at hl; omega
      change (m.set a b).writeBlock (a + 1) bs = _
      rw [ih (m.set a b) (a + 1) hne (by omega)]
      simp only [Except.error.injEq]; omega
    · rw [Memory.writeBlock, Memory.write, if_neg (show ¬ a < 4096 from ha)]
      simp only [Except.error.injEq]; omega

/-- A block write leaves every cell outside the block alone. -/
theorem Memory.get_setBlock_outside (m : Memory) (a : Nat) (bs : List Byte) {c : Nat}
    (h : c < a ∨ a + bs.length ≤ c) : (m.setBlock a bs).get c = m.get c := by
  induction bs generalizing m a with
  | nil => rfl
  | cons b bs ih =>
    have h' : c < a ∨ a + (bs.length + 1) ≤ c := by simpa using h
    rw [Memory.setBlock, ih (m.set a b) (a + 1) (by omega), m.get_set_of_ne b (by omega)]

theorem Memory.wf_setBlock (m : Memory) (a : Nat) (bs : List Byte)
    (h : bs = [] ∨ a + bs.length ≤ 4096) (hwf : m.wf = true) : (m.setBlock a bs).wf = true := by
  induction bs generalizing m a with
  | nil => exact hwf
  | cons b bs ih =>
    have hl : a + (bs.length + 1) ≤ 4096 := by simpa using h
    exact ih (m.set a b) (a + 1) (.inr (by omega)) (m.wf_set a b (by omega) hwf)

/-- A block write is read back cell by cell. -/
theorem Memory.get_setBlock_inside (m : Memory) (a : Nat) (bs : List Byte)
    (h : a + bs.length ≤ 4096) (hwf : m.wf = true) (k : Nat) (hk : k < bs.length) :
    (m.setBlock a bs).get (a + k) = bs[k] := by
  induction bs generalizing m a k with
  | nil => simp at hk
  | cons b bs ih =>
    have hl : a + (bs.length + 1) ≤ 4096 := by simpa using h
    have hwf' := m.wf_set a b (by omega) hwf
    cases k with
    | zero =>
      rw [Memory.setBlock, (m.set a b).get_setBlock_outside (a + 1) bs (by omega)]
      exact m.get_set_same a b hwf
    | succ k =>
      have := ih (m.set a b) (a + 1) (by omega) hwf' k (by simpa using hk)
      rw [Memory.setBlock, show a + (k + 1) = a + 1 + k by omega, this]
      rfl

/-! ## The glyph table -/

/-- At its default FONT leaves nothing to list. -/
theorem Memory.ofFont_default : Memory.ofFont defaultFont = [] := by decide +kernel

/-- So the reset state is that of the default FONT. -/
theorem State.resetWith_default : State.resetWith defaultFont = State.reset := by
  rw [State.resetWith, Memory.ofFont_default]
  rfl

/-- Memory after Reset is in canonical form, whatever FONT is. -/
theorem Memory.wf_ofFont (font : Font) : (Memory.ofFont font).wf = true :=
  Memory.wf_setBlock _ _ _ (.inr (by simp)) rfl

/-- The glyph table holds FONT (10_state.md R39). -/
theorem Memory.get_ofFont (font : Font) (k : Nat) (hk : k < 80) :
    (Memory.ofFont font).get (0x050 + k) = font[k] := by
  have := Memory.get_setBlock_inside [] 0x050 font.toList (by simp) rfl k (by simpa using hk)
  simpa [Memory.ofFont] using this

/-- Every other cell is 0 (R39). -/
theorem Memory.get_ofFont_outside (font : Font) (a : Nat) (h : a < 0x050 ∨ 0x0A0 ≤ a) :
    (Memory.ofFont font).get a = 0 := by
  rw [Memory.ofFont, Memory.get_setBlock_outside _ _ _ (by simpa using h), Memory.get,
    Memory.initial]
  split
  · exact List.getD_eq_default _ _ (by rw [show Memory.font.length = 80 from rfl]; simp at *; omega)
  · rfl

end Sys2Proof.Machine
end

