-- ==== Sys2Proof/Laws/Agents.lean ====
section
/-! SUPPORT. The transitions of the timer controller and the host in closed form. -/

namespace Sys2Proof.Machine

variable (s : State)

/-- A timer counts down and stops at 0 (60_exceptions.md R215). -/
@[simp] theorem countDown_toNat (b : Byte) : (countDown b).toNat = b.toNat - 1 := by
  have := b.isLt
  simp only [countDown, BitVec.toNat_ofNat]
  omega

/-- A program that fits (R220). -/
theorem loadProgram_ok (bytes : List Byte) (h : bytes.length ≤ 3584) :
    loadProgram bytes s = s.withMem (s.mem.setBlock 0x200 bytes) :=
  if_neg (show ¬ bytes.length > 3584 by omega)

/-- A program that does not (R203). -/
theorem loadProgram_fault (bytes : List Byte) (h : bytes.length > 3584) :
    loadProgram bytes s = s.raiseLoad bytes.length :=
  if_pos (show bytes.length > 3584 from h)

/-- A successful load keeps memory in canonical form. -/
theorem loadProgram_wf (bytes : List Byte) (hwf : s.mem.wf = true) :
    (loadProgram bytes s).mem.wf = true := by
  by_cases h : bytes.length ≤ 3584
  · rw [loadProgram_ok s bytes h]
    exact Memory.wf_setBlock _ _ _ (.inr (by omega)) hwf
  · rw [loadProgram_fault s bytes (by omega)]
    exact hwf

/-! ## Reset -/

@[simp] theorem hostReset_draws (font : Font) : (hostReset font s).draws = s.draws := rfl
@[simp] theorem hostReset_mem (font : Font) : (hostReset font s).mem = Memory.ofFont font := rfl

/-- Reset but for the free bytes drawn: the state right after it does not depend on the one before. -/
theorem hostReset_eq (font : Font) :
    hostReset font s = { State.resetWith font with draws := s.draws } := rfl

/-! ## Schedules -/

/-- A schedule that begins with `t` performs `t`, then the rest. -/
theorem runSchedule_cons_next {font : Font} {t : Transition} {ts : List Transition} {u : State}
    {os : List Output} (h : runSchedule font (t :: ts) s = .next (u, os)) :
    ∃ s' o os', transition font t s = .next (s', o) ∧ runSchedule font ts s' = .next (u, os') ∧
      os = o :: os' := by
  unfold runSchedule at h
  cases ht : transition font t s with
  | fault _ => rw [ht] at h; cases h
  | refused _ => rw [ht] at h; cases h
  | next p =>
    rw [ht] at h
    cases hr : runSchedule font ts p.1 with
    | fault _ => simp only [hr] at h; cases h
    | refused _ => simp only [hr] at h; cases h
    | next q =>
      simp only [hr, Host.Outcome.next.injEq, Prod.mk.injEq] at h
      obtain ⟨rfl, rfl⟩ := h
      exact ⟨p.1, p.2, q.2, rfl, hr, rfl⟩

end Sys2Proof.Machine
end

