-- ==== Sys2Proof/Laws/Decode.lean ====
section
/-! SUPPORT. What the field readers of the decoder read from the words the encoder makes. -/

namespace Sys2Proof

theorem opField_wordA (op nnn : Nat) (h : op < 16) : opField (wordA op nnn) = ⟨op, h⟩ :=
  Fin.ext (by simp [opField, wordA]; omega)

theorem nnnField_wordA (op nnn : Nat) (h : nnn < 4096) : nnnField (wordA op nnn) = nnn := by
  simp [nnnField, wordA]; omega

theorem opField_wordXK (op : Nat) (x : Reg) (nn : Byte) (h : op < 16) :
    opField (wordXK op x nn) = ⟨op, h⟩ :=
  Fin.ext (by simp [opField, wordXK]; omega)

theorem xField_wordXK (op : Nat) (x : Reg) (nn : Byte) : xField (wordXK op x nn) = x :=
  Fin.ext (by simp [xField, wordXK]; omega)

theorem nnField_wordXK (op : Nat) (x : Reg) (nn : Byte) : nnField (wordXK op x nn) = nn :=
  BitVec.eq_of_toNat_eq (by simp [nnField, wordXK]; omega)

theorem opField_wordXY (op : Nat) (x y : Reg) (n : Nat) (h : op < 16) :
    opField (wordXY op x y n) = ⟨op, h⟩ :=
  Fin.ext (by simp [opField, wordXY]; omega)

theorem xField_wordXY (op : Nat) (x y : Reg) (n : Nat) : xField (wordXY op x y n) = x :=
  Fin.ext (by simp [xField, wordXY]; omega)

theorem yField_wordXY (op : Nat) (x y : Reg) (n : Nat) : yField (wordXY op x y n) = y :=
  Fin.ext (by simp [yField, wordXY]; omega)

theorem nField_wordXY (op : Nat) (x y : Reg) (n : Nat) (h : n < 16) :
    nField (wordXY op x y n) = n := by
  simp [nField, wordXY]; omega

/-- The two bytes of a word make that word (20_memory.md R63). -/
theorem wordOfBytes_bytesOfWord (w : Word) :
    wordOfBytes (bytesOfWord w).1 (bytesOfWord w).2 = w :=
  BitVec.eq_of_toNat_eq (by simp [wordOfBytes, bytesOfWord]; omega)

/-- A word is its family and its low 12 bits. -/
theorem word_eq_wordA (w : Word) : w = wordA (opField w).val (nnnField w) :=
  BitVec.eq_of_toNat_eq (by simp [wordA, opField, nnnField]; omega)

/-- A word is its family, its `x` and its `nn`. -/
theorem word_eq_wordXK (w : Word) : w = wordXK (opField w).val (xField w) (nnField w) :=
  BitVec.eq_of_toNat_eq (by simp [wordXK, opField, xField, nnField]; omega)

/-- A word is its family, its `x`, its `y` and its `n`. -/
theorem word_eq_wordXY (w : Word) :
    w = wordXY (opField w).val (xField w) (yField w) (nField w) :=
  BitVec.eq_of_toNat_eq (by simp [wordXY, opField, xField, yField, nField]; omega)

end Sys2Proof
end

