-- ==== Sys2Proof/Laws/Ops.lean ====
section
/-! SUPPORT. What each shared operation can do, said once: fetch, push, pop, key scan, skips, the
flag template, and the data accesses of the loads and stores. -/

namespace Sys2Proof.Machine

variable (s : State)

/-! ## Fetch -/

theorem State.fetchWord_ok (h : s.pc.toNat ≤ 0xFFE) :
    s.fetchWord = .ok (wordOfBytes (s.mem.get s.pc.toNat) (s.mem.get (s.pc.toNat + 1))) := by
  rw [State.fetchWord, s.mem.read_of_lt (by omega), s.mem.read_of_lt (by omega)]

theorem State.fetchWord_error (h : s.pc.toNat > 0xFFE) :
    s.fetchWord = .error (max s.pc.toNat 0x1000) := by
  unfold State.fetchWord
  by_cases hpc : s.pc.toNat < 4096
  · rw [s.mem.read_of_lt hpc, s.mem.read_of_ge (by omega)]
    simp only [Except.error.injEq]; omega
  · rw [s.mem.read_of_ge (by omega)]
    simp only [Except.error.injEq]; omega

/-- A fetch succeeds only where both bytes exist (20_memory.md R63). -/
theorem State.pc_le_of_fetchWord {w : Word} (h : s.fetchWord = .ok w) : s.pc.toNat ≤ 0xFFE := by
  by_contra hpc
  rw [s.fetchWord_error (by omega)] at h
  cases h

/-! ## Call stack -/

/-- A push below depth 16 (10_state.md R30). -/
theorem State.push_of_lt (n : Nat) (h : s.sp.val < 16) :
    s.push n = some (s.withStack (s.stack.set s.sp.val (BitVec.ofNat 16 n))
      ⟨s.sp.val + 1, by omega⟩) := dif_pos h

theorem State.push_of_full (n : Nat) (h : s.sp.val = 16) : s.push n = none :=
  dif_neg (by omega)

/-- A pop above depth 0 (R30). -/
theorem State.pop_of_pos (h : 0 < s.sp.val) :
    s.pop = some (s.stack[s.sp.val - 1], s.withStack s.stack ⟨s.sp.val - 1, by omega⟩) := dif_pos h

theorem State.pop_of_empty (h : s.sp.val = 0) : s.pop = none := dif_neg (by omega)

/-! ## Keyboard -/

/-- The scan finds the least pressed key (44_keyboard_timers.md R182). -/
theorem State.leastKey_eq_some {k : Nat} (h : k < 16) (hk : s.keyPressed k = true)
    (hmin : ∀ j, j < k → s.keyPressed j = false) : s.leastKey = some k := by
  rw [State.leastKey, List.find?_range_eq_some]
  exact ⟨hk, by simpa using h, fun j hj => by simp [hmin j hj]⟩

theorem State.leastKey_eq_none (h : ∀ j, j < 16 → s.keyPressed j = false) : s.leastKey = none := by
  rw [State.leastKey, List.find?_range_eq_none]
  intro j hj
  simp [h j hj]

/-- A key the scan finds is one of the sixteen and pressed. -/
theorem State.leastKey_lt {k : Nat} (h : s.leastKey = some k) :
    k < 16 ∧ s.keyPressed k = true := by
  rw [State.leastKey, List.find?_range_eq_some] at h
  exact ⟨by simpa using h.2.1, h.1⟩

/-! ## Program counter -/

/-- `pc + 2` on 16 bits (10_state.md R26). -/
theorem State.advance_pc_eq : s.advance.pc = s.pc + 2 :=
  BitVec.eq_of_toNat_eq (by simp)

/-- A skip on 16 bits (R25). -/
theorem State.skipIf_pc (c : Bool) : (s.skipIf c).pc = s.pc + if c then 4 else 2 := by
  cases c <;> exact BitVec.eq_of_toNat_eq (by simp [State.skipIf])

/-! ## The flag template (41_alu.md R146) -/

theorem State.writeResultFlag_flag (x : Reg) (r f : Nat) :
    (s.writeResultFlag x r f).reg 15 = BitVec.ofNat 8 f := by
  simp [State.writeResultFlag, flagReg]

theorem State.writeResultFlag_result (x : Reg) (r f : Nat) (h : x ≠ 15) :
    (s.writeResultFlag x r f).reg x = BitVec.ofNat 8 r := by
  simp [State.writeResultFlag, flagReg, State.reg_writeV, h]

theorem State.writeResultFlag_other (x q : Reg) (r f : Nat) (h : q ≠ x) (h' : q ≠ 15) :
    (s.writeResultFlag x r f).reg q = s.reg q := by
  simp [State.writeResultFlag, flagReg, State.reg_writeV, h, h']

theorem State.writeResultFlag_pc (x : Reg) (r f : Nat) :
    (s.writeResultFlag x r f).pc = s.pc + 2 :=
  State.advance_pc_eq _

end Sys2Proof.Machine
end

