-- ==== Sys2Proof/Laws/Sprite.lean ====
section
/-! SUPPORT. The sprite engine in closed form: which cells a sprite toggles, that it toggles none
twice, and what the sprite loop leaves (43_display.md R172). -/

namespace Sys2Proof.Machine

/-! ## The sprite loop over a list of cells -/

/-- Over cells without repeats the loop inverts exactly the listed cells. -/
theorem foldl_drawCell_fst (cells : List Nat) (p : Framebuffer × Bool) (h : cells.Nodup) (j : Nat)
    (hj : j < 2048) :
    (cells.foldl drawCell p).1.getLsbD j = (p.1.getLsbD j ^^ decide (j ∈ cells)) := by
  induction cells generalizing p with
  | nil => simp
  | cons c cells ih =>
    obtain ⟨hc, hrest⟩ := List.nodup_cons.1 h
    rw [List.foldl_cons, ih _ hrest]
    by_cases hjc : c = j
    · subst hjc; simp [drawCell, hc, hj]
    · simp [drawCell, hjc, Ne.symm hjc]

/-- Over cells without repeats the loop notes a collision exactly when a listed cell was set. -/
theorem foldl_drawCell_snd (cells : List Nat) (p : Framebuffer × Bool) (h : cells.Nodup) :
    (cells.foldl drawCell p).2 = (p.2 || cells.any fun j => p.1.getLsbD j) := by
  induction cells generalizing p with
  | nil => simp
  | cons c cells ih =>
    obtain ⟨hc, hrest⟩ := List.nodup_cons.1 h
    have hsame : (cells.any fun j => (drawCell p c).1.getLsbD j) =
        cells.any fun j => p.1.getLsbD j := by
      apply Bool.eq_iff_iff.2
      simp only [List.any_eq_true]
      refine exists_congr fun j => and_congr_right fun hj => ?_
      have hjc : c ≠ j := fun e => hc (e ▸ hj)
      simp [drawCell, hjc]
    rw [List.foldl_cons, ih _ hrest, hsame]
    simp [drawCell, Bool.or_assoc]

theorem drawCells_fst (f : Framebuffer) (cells : List Nat) (h : cells.Nodup) (j : Nat)
    (hj : j < 2048) :
    (drawCells f cells).1.getLsbD j = (f.getLsbD j ^^ decide (j ∈ cells)) :=
  foldl_drawCell_fst cells (f, false) h j hj

theorem drawCells_snd (f : Framebuffer) (cells : List Nat) (h : cells.Nodup) :
    (drawCells f cells).2 = cells.any fun j => f.getLsbD j := by
  simpa [drawCells] using foldl_drawCell_snd cells (f, false) h

/-! ## The cells of a sprite -/

theorem mem_rowCells (x0 y : Nat) (row : Byte) (j : Nat) :
    j ∈ rowCells x0 y row ↔ ∃ col, col < 8 ∧ row.getLsbD (7 - col) = true ∧
      j = pixelCell ((x0 + col) % 64) (y % 32) := by
  simp only [rowCells, spriteBit, List.mem_map, List.mem_filter, List.mem_range]
  constructor
  · rintro ⟨col, ⟨h1, h2⟩, h3⟩; exact ⟨col, h1, h2, h3.symm⟩
  · rintro ⟨col, h1, h2, h3⟩; exact ⟨col, ⟨h1, h2⟩, h3.symm⟩

theorem mem_spriteCells (x0 y0 : Nat) (rows : List Byte) (j : Nat) :
    j ∈ spriteCells x0 y0 rows ↔ ∃ r, ∃ h : r < rows.length, ∃ col, col < 8 ∧
      rows[r].getLsbD (7 - col) = true ∧ j = pixelCell ((x0 + col) % 64) ((y0 + r) % 32) := by
  induction rows generalizing y0 with
  | nil => simp [spriteCells]
  | cons row rows ih =>
    simp only [spriteCells, List.mem_append, mem_rowCells, ih]
    constructor
    · rintro (⟨col, h1, h2, h3⟩ | ⟨r, hr, col, h1, h2, h3⟩)
      · exact ⟨0, by simp, col, h1, h2, h3⟩
      · exact ⟨r + 1, by simpa using hr, col, h1, h2, by rw [h3]; congr 2; omega⟩
    · rintro ⟨r, hr, col, h1, h2, h3⟩
      cases r with
      | zero => exact .inl ⟨col, h1, h2, h3⟩
      | succ r =>
        exact .inr ⟨r, by simpa using hr, col, h1, h2, by rw [h3]; congr 2; omega⟩

/-- The cell of a pixel determines the pixel (10_state.md R33). -/
theorem pixelCell_inj {px py qx qy : Nat} (h1 : px < 64) (h2 : qx < 64)
    (h : pixelCell px py = pixelCell qx qy) : px = qx ∧ py = qy := by
  simp only [pixelCell, Config.fbWidth] at h; omega

theorem pixelCell_lt {px py : Nat} (h1 : px < 64) (h2 : py < 32) : pixelCell px py < 2048 := by
  simp only [pixelCell, Config.fbWidth]; omega

theorem nodup_rowCells (x0 y : Nat) (row : Byte) : (rowCells x0 y row).Nodup := by
  refine (List.Nodup.filter _ List.nodup_range).map_on ?_
  intro a ha b hb hab
  simp only [List.mem_filter, List.mem_range] at ha hb
  have hx : (x0 + a) % 64 = (x0 + b) % 64 :=
    (pixelCell_inj (Nat.mod_lt _ (by decide)) (Nat.mod_lt _ (by decide)) hab).1
  omega

/-- A sprite of at most 32 rows lands on no pixel twice (R172). -/
theorem nodup_spriteCells (x0 y0 : Nat) (rows : List Byte) (h : rows.length ≤ 32) :
    (spriteCells x0 y0 rows).Nodup := by
  induction rows generalizing y0 with
  | nil => simp [spriteCells]
  | cons row rows ih =>
    rw [spriteCells, List.nodup_append]
    refine ⟨nodup_rowCells x0 y0 row, ih (y0 + 1) (by simp at h; omega), ?_⟩
    intro a ha b hb hab
    rw [mem_rowCells] at ha
    rw [mem_spriteCells] at hb
    obtain ⟨c, -, -, h3⟩ := ha
    obtain ⟨r, hr, d, -, -, h6⟩ := hb
    have := (pixelCell_inj (by omega) (by omega) (h3 ▸ h6 ▸ hab)).2
    simp at h
    omega

/-- The cells of the sprite at `I` are the pixels it covers. -/
theorem mem_spriteCells_iff_covers (s : State) (x0 y0 n px py : Nat) (h1 : px < 64) :
    pixelCell px py ∈
        spriteCells x0 y0 ((List.range n).map fun k => s.mem.get (s.idx.toNat + k)) ↔
      spriteCovers s x0 y0 n px py := by
  rw [mem_spriteCells, spriteCovers]
  constructor
  · rintro ⟨r, hr, col, h2, h3, h4⟩
    obtain ⟨h5, h6⟩ := pixelCell_inj h1 (by omega) h4
    exact ⟨r, by simpa using hr, col, h2, by simpa using h3, h5, h6⟩
  · rintro ⟨r, hr, col, h2, h3, h4, h5⟩
    exact ⟨r, by simpa using hr, col, h2, by simpa using h3, by rw [h4, h5]⟩

end Sys2Proof.Machine
end

