-- ==== Sys2Proof/Laws/Exec.lean ====
section
/-! SUPPORT. The instructions that can raise a fault (60_exceptions.md R209), in their two cases
each: in range, and the fault. Every other meaning is one named update of the state already. -/

namespace Sys2Proof.Machine

variable (s : State)

/-! ## The arms of `exec` -/

@[simp] theorem exec_cls : exec .cls s = execCls s := rfl
@[simp] theorem exec_ret : exec .ret s = execRet s := rfl
@[simp] theorem exec_jp (nnn : Nat) : exec (.jp nnn) s = execJp nnn s := rfl
@[simp] theorem exec_call (nnn : Nat) : exec (.call nnn) s = execCall nnn s := rfl
@[simp] theorem exec_seImm (x : Reg) (nn : Byte) : exec (.seImm x nn) s = execSeImm x nn s := rfl
@[simp] theorem exec_sneImm (x : Reg) (nn : Byte) : exec (.sneImm x nn) s = execSneImm x nn s := rfl
@[simp] theorem exec_seReg (x y : Reg) : exec (.seReg x y) s = execSeReg x y s := rfl
@[simp] theorem exec_ldImm (x : Reg) (nn : Byte) : exec (.ldImm x nn) s = execLdImm x nn s := rfl
@[simp] theorem exec_addImm (x : Reg) (nn : Byte) : exec (.addImm x nn) s = execAddImm x nn s := rfl
@[simp] theorem exec_ldReg (x y : Reg) : exec (.ldReg x y) s = execLdReg x y s := rfl
@[simp] theorem exec_orReg (x y : Reg) : exec (.orReg x y) s = execOrReg x y s := rfl
@[simp] theorem exec_andReg (x y : Reg) : exec (.andReg x y) s = execAndReg x y s := rfl
@[simp] theorem exec_xorReg (x y : Reg) : exec (.xorReg x y) s = execXorReg x y s := rfl
@[simp] theorem exec_addReg (x y : Reg) : exec (.addReg x y) s = execAddReg x y s := rfl
@[simp] theorem exec_sub (x y : Reg) : exec (.sub x y) s = execSub x y s := rfl
@[simp] theorem exec_shr (x y : Reg) : exec (.shr x y) s = execShr x y s := rfl
@[simp] theorem exec_subn (x y : Reg) : exec (.subn x y) s = execSubn x y s := rfl
@[simp] theorem exec_shl (x y : Reg) : exec (.shl x y) s = execShl x y s := rfl
@[simp] theorem exec_sneReg (x y : Reg) : exec (.sneReg x y) s = execSneReg x y s := rfl
@[simp] theorem exec_ldI (nnn : Nat) : exec (.ldI nnn) s = execLdI nnn s := rfl
@[simp] theorem exec_jpV0 (nnn : Nat) : exec (.jpV0 nnn) s = execJpV0 nnn s := rfl
@[simp] theorem exec_rnd (x : Reg) (nn : Byte) : exec (.rnd x nn) s = execRnd x nn s := rfl
@[simp] theorem exec_drw (x y : Reg) (n : Nat) : exec (.drw x y n) s = execDrw x y n s := rfl
@[simp] theorem exec_skp (x : Reg) : exec (.skp x) s = execSkp x s := rfl
@[simp] theorem exec_sknp (x : Reg) : exec (.sknp x) s = execSknp x s := rfl
@[simp] theorem exec_ldVxDT (x : Reg) : exec (.ldVxDT x) s = execLdVxDT x s := rfl
@[simp] theorem exec_ldVxK (x : Reg) : exec (.ldVxK x) s = execLdVxK x s := rfl
@[simp] theorem exec_ldDTVx (x : Reg) : exec (.ldDTVx x) s = execLdDTVx x s := rfl
@[simp] theorem exec_ldSTVx (x : Reg) : exec (.ldSTVx x) s = execLdSTVx x s := rfl
@[simp] theorem exec_addI (x : Reg) : exec (.addI x) s = execAddI x s := rfl
@[simp] theorem exec_ldF (x : Reg) : exec (.ldF x) s = execLdF x s := rfl
@[simp] theorem exec_ldB (x : Reg) : exec (.ldB x) s = execLdB x s := rfl
@[simp] theorem exec_storeRegs (x : Reg) : exec (.storeRegs x) s = execStoreRegs x s := rfl
@[simp] theorem exec_loadRegs (x : Reg) : exec (.loadRegs x) s = execLoadRegs x s := rfl

/-! ## CALL and RET -/

theorem execCall_ok (nnn : Nat) (h : s.sp.val < 16) :
    execCall nnn s = .next ((s.withStack
      (s.stack.set s.sp.val (BitVec.ofNat 16 (s.pc.toNat + 2)))
      ⟨s.sp.val + 1, by omega⟩).jumpTo nnn) := by
  rw [execCall, s.push_of_lt _ h]

theorem execCall_full (nnn : Nat) (h : s.sp.val = 16) :
    execCall nnn s = .next (s.raiseOverflow (.call nnn)) := by
  rw [execCall, s.push_of_full _ h]

theorem execRet_ok (h : 0 < s.sp.val) :
    execRet s = .next ((s.withStack s.stack ⟨s.sp.val - 1, by omega⟩).jumpTo
      s.stack[s.sp.val - 1].toNat) := by
  rw [execRet, s.pop_of_pos h]

theorem execRet_empty (h : s.sp.val = 0) : execRet s = .next (s.raiseUnderflow .ret) := by
  rw [execRet, s.pop_of_empty h]

/-! ## Stores and loads -/

theorem execLdB_ok (x : Reg) (h : s.idx.toNat + 2 ≤ 0xFFF) :
    execLdB x s =
      .next (s.withMem (s.mem.setBlock s.idx.toNat (bcdDigits (s.reg x)))).advance := by
  rw [execLdB, State.dataAddress, Memory.writeBlock_ok _ _ _ (.inr (by simp [bcdDigits]; omega))]

theorem execLdB_fault (x : Reg) (h : s.idx.toNat + 2 > 0xFFF) :
    execLdB x s = .next (s.raiseData (.ldB x) (max s.idx.toNat 0x1000)) := by
  rw [execLdB, State.dataAddress,
    Memory.writeBlock_error _ _ _ (by simp [bcdDigits]) (by simp [bcdDigits]; omega)]

theorem execStoreRegs_ok (x : Reg) (h : s.idx.toNat + x.val ≤ 0xFFF) :
    execStoreRegs x s =
      .next (s.withMem (s.mem.setBlock s.idx.toNat (s.regsUpTo x))).advance := by
  rw [execStoreRegs, State.dataAddress,
    Memory.writeBlock_ok _ _ _ (.inr (by rw [s.length_regsUpTo]; omega))]

theorem execStoreRegs_fault (x : Reg) (h : s.idx.toNat + x.val > 0xFFF) :
    execStoreRegs x s = .next (s.raiseData (.storeRegs x) (max s.idx.toNat 0x1000)) := by
  have hl := s.length_regsUpTo x
  rw [execStoreRegs, State.dataAddress,
    Memory.writeBlock_error _ _ _ (by rintro e; simp [e] at hl) (by rw [hl]; omega)]

theorem execLoadRegs_ok (x : Reg) (h : s.idx.toNat + x.val ≤ 0xFFF) :
    execLoadRegs x s = .next ((s.writeFirst ((List.range (x.val + 1)).map fun k =>
      s.mem.get (s.idx.toNat + k))).writeI (s.idx.toNat + x.val + 1)).advance := by
  rw [execLoadRegs, State.dataAddress, Memory.readBlock_ok _ _ _ (.inr (by omega))]

theorem execLoadRegs_fault (x : Reg) (h : s.idx.toNat + x.val > 0xFFF) :
    execLoadRegs x s = .next (s.raiseData (.loadRegs x) (max s.idx.toNat 0x1000)) := by
  rw [execLoadRegs, State.dataAddress, Memory.readBlock_error _ _ _ (by omega) (by omega)]

/-! ## DRW -/

/-- The cells the sprite of DRW toggles, its rows read from memory (43_display.md R172). -/
def State.drwCells (x y : Reg) (n : Nat) : List Nat :=
  spriteCells (s.reg x).toNat (s.reg y).toNat
    ((List.range n).map fun k => s.mem.get (s.idx.toNat + k))

theorem execDrw_ok (x y : Reg) (n : Nat) (h : n = 0 ∨ s.idx.toNat + n - 1 ≤ 0xFFF) :
    execDrw x y n s = .next ((s.showFrame (drawCells s.fb (s.drwCells x y n)).1).writeV flagReg
      (collisionFlag (drawCells s.fb (s.drwCells x y n)).2)).advance := by
  rw [execDrw, State.dataAddress, Memory.readBlock_ok _ _ _ (by omega)]
  rfl

theorem execDrw_fault (x y : Reg) (n : Nat) (h : 1 ≤ n) (h' : s.idx.toNat + n - 1 > 0xFFF) :
    execDrw x y n s = .next (s.raiseData (.drw x y n) (max s.idx.toNat 0x1000)) := by
  rw [execDrw, State.dataAddress, Memory.readBlock_error _ _ _ h (by omega)]

theorem State.nodup_drwCells (x y : Reg) (n : Nat) (h : n ≤ 32) : (s.drwCells x y n).Nodup :=
  nodup_spriteCells _ _ _ (by simpa using h)

/-! ## SKP and SKNP -/

theorem execSkp_ok (x : Reg) (h : (s.reg x).toNat ≤ 15) :
    execSkp x s = .next (s.skipIf (s.keyPressed (s.reg x).toNat)) := if_neg (by omega)

theorem execSkp_fault (x : Reg) (h : (s.reg x).toNat > 15) :
    execSkp x s = .next (s.raiseKeyIndex (.skp x) (s.reg x).toNat) := if_pos h

theorem execSknp_ok (x : Reg) (h : (s.reg x).toNat ≤ 15) :
    execSknp x s = .next (s.skipIf (!s.keyPressed (s.reg x).toNat)) := if_neg (by omega)

theorem execSknp_fault (x : Reg) (h : (s.reg x).toNat > 15) :
    execSknp x s = .next (s.raiseKeyIndex (.sknp x) (s.reg x).toNat) := if_pos h

/-! ## LD Vx, K -/

theorem execLdVxK_cases (x : Reg) :
    (s.leastKey = none ∧ execLdVxK x s = .next s) ∨
    ∃ k, k < 16 ∧ s.keyPressed k = true ∧ execLdVxK x s = .next (s.writeV x k).advance := by
  unfold execLdVxK
  cases h : s.leastKey with
  | none => exact .inl ⟨rfl, rfl⟩
  | some k => exact .inr ⟨k, (s.leastKey_lt h).1, (s.leastKey_lt h).2, rfl⟩

end Sys2Proof.Machine
end

