-- ==== Sys2Proof/Laws/PerInstr.lean ====
section
/-! SUPPORT. Statements made per instruction. `TableRow`: the word the encoder makes selects the
instruction's row of 30_encoding.md R96, `w & mask = match`. -/

namespace Sys2Proof.Laws.TableRow

/-- Match and mask of an instruction's row, as R96 prints them. -/
def row : Instr → Word × Word
  | .cls => (0x00E0, 0xFFFF)
  | .ret => (0x00EE, 0xFFFF)
  | .jp _ => (0x1000, 0xF000)
  | .call _ => (0x2000, 0xF000)
  | .seImm _ _ => (0x3000, 0xF000)
  | .sneImm _ _ => (0x4000, 0xF000)
  | .seReg _ _ => (0x5000, 0xF000)
  | .ldImm _ _ => (0x6000, 0xF000)
  | .addImm _ _ => (0x7000, 0xF000)
  | .ldReg _ _ => (0x8000, 0xF00F)
  | .orReg _ _ => (0x8001, 0xF00F)
  | .andReg _ _ => (0x8002, 0xF00F)
  | .xorReg _ _ => (0x8003, 0xF00F)
  | .addReg _ _ => (0x8004, 0xF00F)
  | .sub _ _ => (0x8005, 0xF00F)
  | .shr _ _ => (0x8006, 0xF00F)
  | .subn _ _ => (0x8007, 0xF00F)
  | .shl _ _ => (0x800E, 0xF00F)
  | .sneReg _ _ => (0x9000, 0xF000)
  | .ldI _ => (0xA000, 0xF000)
  | .jpV0 _ => (0xB000, 0xF000)
  | .rnd _ _ => (0xC000, 0xF000)
  | .drw _ _ _ => (0xD000, 0xF000)
  | .skp _ => (0xE09E, 0xF0FF)
  | .sknp _ => (0xE0A1, 0xF0FF)
  | .ldVxDT _ => (0xF007, 0xF0FF)
  | .ldVxK _ => (0xF00A, 0xF0FF)
  | .ldDTVx _ => (0xF015, 0xF0FF)
  | .ldSTVx _ => (0xF018, 0xF0FF)
  | .addI _ => (0xF01E, 0xF0FF)
  | .ldF _ => (0xF029, 0xF0FF)
  | .ldB _ => (0xF033, 0xF0FF)
  | .storeRegs _ => (0xF055, 0xF0FF)
  | .loadRegs _ => (0xF065, 0xF0FF)

def Statement (i : Instr) : Prop := encode i &&& (row i).2 = (row i).1

/-- The top nibble of a word, masked, is its family (R91). -/
theorem and_F000 (w : Word) : w &&& 0xF000#16 = BitVec.ofNat 16 ((opField w).val * 4096) := by
  have h : w &&& 0xF000#16 = (w >>> 12) <<< 12 := by
    ext k hk
    have h1 : ∀ j < 16, (0xF000#16).getLsbD j = decide (12 ≤ j) := by decide
    have h2 := h1 k hk
    by_cases h12 : k < 12 <;> simp_all
  rw [h]
  apply BitVec.eq_of_toNat_eq
  have := w.isLt
  simp [Nat.shiftRight_eq_div_pow, Nat.shiftLeft_eq, opField]

/-- The low bits of a word, masked, are its remainder. -/
theorem and_low (w : Word) (k : Nat) (h : k ≤ 16) :
    w &&& BitVec.ofNat 16 (2 ^ k - 1) = BitVec.ofNat 16 (w.toNat % 2 ^ k) := by
  apply BitVec.eq_of_toNat_eq
  have h1 : 2 ^ k ≤ 2 ^ 16 := Nat.pow_le_pow_right (by omega) h
  have h2 : 0 < 2 ^ k := Nat.pos_of_ne_zero (by positivity)
  simp only [BitVec.toNat_and, BitVec.toNat_ofNat]
  rw [Nat.mod_eq_of_lt (by omega), Nat.and_two_pow_sub_one_eq_mod,
    Nat.mod_eq_of_lt (lt_of_lt_of_le (Nat.mod_lt _ h2) h1)]

theorem and_F00F (w : Word) :
    w &&& 0xF00F#16 = BitVec.ofNat 16 ((opField w).val * 4096) ||| BitVec.ofNat 16 (nField w) := by
  have h : nField w = w.toNat % 2 ^ 4 := rfl
  rw [← and_F000, h, ← and_low w 4 (by decide), ← BitVec.and_or_distrib_left]
  rfl

theorem and_F0FF (w : Word) :
    w &&& 0xF0FF#16 =
      BitVec.ofNat 16 ((opField w).val * 4096) ||| BitVec.ofNat 16 (nnField w).toNat := by
  have h : (nnField w).toNat = w.toNat % 2 ^ 8 := by simp [nnField]
  rw [← and_F000, h, ← and_low w 8 (by decide), ← BitVec.and_or_distrib_left]
  rfl

theorem cls : Statement .cls := rfl

theorem ret : Statement .ret := rfl

theorem jp (nnn : Nat) : Statement (.jp nnn) := by
  exact (and_F000 _).trans (by rw [encode, opField_wordA _ _ (by decide)]; rfl)

theorem call (nnn : Nat) : Statement (.call nnn) := by
  exact (and_F000 _).trans (by rw [encode, opField_wordA _ _ (by decide)]; rfl)

theorem seImm (x : Reg) (nn : Byte) : Statement (.seImm x nn) := by
  exact (and_F000 _).trans (by rw [encode, opField_wordXK _ _ _ (by decide)]; rfl)

theorem sneImm (x : Reg) (nn : Byte) : Statement (.sneImm x nn) := by
  exact (and_F000 _).trans (by rw [encode, opField_wordXK _ _ _ (by decide)]; rfl)

theorem seReg (x : Reg) (y : Reg) : Statement (.seReg x y) := by
  exact (and_F000 _).trans (by rw [encode, opField_wordXY _ _ _ _ (by decide)]; rfl)

theorem ldImm (x : Reg) (nn : Byte) : Statement (.ldImm x nn) := by
  exact (and_F000 _).trans (by rw [encode, opField_wordXK _ _ _ (by decide)]; rfl)

theorem addImm (x : Reg) (nn : Byte) : Statement (.addImm x nn) := by
  exact (and_F000 _).trans (by rw [encode, opField_wordXK _ _ _ (by decide)]; rfl)

theorem ldReg (x : Reg) (y : Reg) : Statement (.ldReg x y) := by
  exact (and_F00F _).trans (by rw [encode, opField_wordXY _ _ _ _ (by decide), nField_wordXY _ _ _ _ (by decide)]; rfl)

theorem orReg (x : Reg) (y : Reg) : Statement (.orReg x y) := by
  exact (and_F00F _).trans (by rw [encode, opField_wordXY _ _ _ _ (by decide), nField_wordXY _ _ _ _ (by decide)]; rfl)

theorem andReg (x : Reg) (y : Reg) : Statement (.andReg x y) := by
  exact (and_F00F _).trans (by rw [encode, opField_wordXY _ _ _ _ (by decide), nField_wordXY _ _ _ _ (by decide)]; rfl)

theorem xorReg (x : Reg) (y : Reg) : Statement (.xorReg x y) := by
  exact (and_F00F _).trans (by rw [encode, opField_wordXY _ _ _ _ (by decide), nField_wordXY _ _ _ _ (by decide)]; rfl)

theorem addReg (x : Reg) (y : Reg) : Statement (.addReg x y) := by
  exact (and_F00F _).trans (by rw [encode, opField_wordXY _ _ _ _ (by decide), nField_wordXY _ _ _ _ (by decide)]; rfl)

theorem sub (x : Reg) (y : Reg) : Statement (.sub x y) := by
  exact (and_F00F _).trans (by rw [encode, opField_wordXY _ _ _ _ (by decide), nField_wordXY _ _ _ _ (by decide)]; rfl)

theorem shr (x : Reg) (y : Reg) : Statement (.shr x y) := by
  exact (and_F00F _).trans (by rw [encode, opField_wordXY _ _ _ _ (by decide), nField_wordXY _ _ _ _ (by decide)]; rfl)

theorem subn (x : Reg) (y : Reg) : Statement (.subn x y) := by
  exact (and_F00F _).trans (by rw [encode, opField_wordXY _ _ _ _ (by decide), nField_wordXY _ _ _ _ (by decide)]; rfl)

theorem shl (x : Reg) (y : Reg) : Statement (.shl x y) := by
  exact (and_F00F _).trans (by rw [encode, opField_wordXY _ _ _ _ (by decide), nField_wordXY _ _ _ _ (by decide)]; rfl)

theorem sneReg (x : Reg) (y : Reg) : Statement (.sneReg x y) := by
  exact (and_F000 _).trans (by rw [encode, opField_wordXY _ _ _ _ (by decide)]; rfl)

theorem ldI (nnn : Nat) : Statement (.ldI nnn) := by
  exact (and_F000 _).trans (by rw [encode, opField_wordA _ _ (by decide)]; rfl)

theorem jpV0 (nnn : Nat) : Statement (.jpV0 nnn) := by
  exact (and_F000 _).trans (by rw [encode, opField_wordA _ _ (by decide)]; rfl)

theorem rnd (x : Reg) (nn : Byte) : Statement (.rnd x nn) := by
  exact (and_F000 _).trans (by rw [encode, opField_wordXK _ _ _ (by decide)]; rfl)

theorem drw (x : Reg) (y : Reg) (n : Nat) : Statement (.drw x y n) := by
  exact (and_F000 _).trans (by rw [encode, opField_wordXY _ _ _ _ (by decide)]; rfl)

theorem skp (x : Reg) : Statement (.skp x) := by
  exact (and_F0FF _).trans (by rw [encode, opField_wordXK _ _ _ (by decide), nnField_wordXK]; rfl)

theorem sknp (x : Reg) : Statement (.sknp x) := by
  exact (and_F0FF _).trans (by rw [encode, opField_wordXK _ _ _ (by decide), nnField_wordXK]; rfl)

theorem ldVxDT (x : Reg) : Statement (.ldVxDT x) := by
  exact (and_F0FF _).trans (by rw [encode, opField_wordXK _ _ _ (by decide), nnField_wordXK]; rfl)

theorem ldVxK (x : Reg) : Statement (.ldVxK x) := by
  exact (and_F0FF _).trans (by rw [encode, opField_wordXK _ _ _ (by decide), nnField_wordXK]; rfl)

theorem ldDTVx (x : Reg) : Statement (.ldDTVx x) := by
  exact (and_F0FF _).trans (by rw [encode, opField_wordXK _ _ _ (by decide), nnField_wordXK]; rfl)

theorem ldSTVx (x : Reg) : Statement (.ldSTVx x) := by
  exact (and_F0FF _).trans (by rw [encode, opField_wordXK _ _ _ (by decide), nnField_wordXK]; rfl)

theorem addI (x : Reg) : Statement (.addI x) := by
  exact (and_F0FF _).trans (by rw [encode, opField_wordXK _ _ _ (by decide), nnField_wordXK]; rfl)

theorem ldF (x : Reg) : Statement (.ldF x) := by
  exact (and_F0FF _).trans (by rw [encode, opField_wordXK _ _ _ (by decide), nnField_wordXK]; rfl)

theorem ldB (x : Reg) : Statement (.ldB x) := by
  exact (and_F0FF _).trans (by rw [encode, opField_wordXK _ _ _ (by decide), nnField_wordXK]; rfl)

theorem storeRegs (x : Reg) : Statement (.storeRegs x) := by
  exact (and_F0FF _).trans (by rw [encode, opField_wordXK _ _ _ (by decide), nnField_wordXK]; rfl)

theorem loadRegs (x : Reg) : Statement (.loadRegs x) := by
  exact (and_F0FF _).trans (by rw [encode, opField_wordXK _ _ _ (by decide), nnField_wordXK]; rfl)

end Sys2Proof.Laws.TableRow
end

