-- ==== Sys2Proof/Tests/Slice0.lean ====
section
/-! SUPPORT. Tests: ill-formed terms, words written out from the opcode table, single steps whose
results are those of spec/95_test_vectors.md (S: its part 1; the number: its section), and for every
statement with hypotheses a witness that meets them. -/

namespace Sys2Proof.Tests

open Sys2Proof.Machine

/-! ## Well-formedness refuses -/

theorem test_wf_jp : Instr.wellFormed (.jp 0x1000) = false := by decide
theorem test_wf_call : Instr.wellFormed (.call 0x1000) = false := by decide
theorem test_wf_ldI : Instr.wellFormed (.ldI 0x1000) = false := by decide
theorem test_wf_jpV0 : Instr.wellFormed (.jpV0 0x1000) = false := by decide
theorem test_wf_drw : Instr.wellFormed (.drw 0 0 16) = false := by decide

/-! ## Decoding: words written out from 30_encoding.md R96, one for every row -/
theorem test_decode_cls : decode 0b0000000011100000 = .ok (.cls) := by decide
theorem test_decode_ret : decode 0b0000000011101110 = .ok (.ret) := by decide
theorem test_decode_jp : decode 0b0001001000110100 = .ok (.jp 0x234) := by decide
theorem test_decode_call : decode 0b0010111111111110 = .ok (.call 0xFFE) := by decide
theorem test_decode_seImm : decode 0b0011000110000001 = .ok (.seImm 1 0x81) := by decide
theorem test_decode_sneImm : decode 0b0100001000010001 = .ok (.sneImm 2 0x11) := by decide
theorem test_decode_seReg : decode 0b0101001101000000 = .ok (.seReg 3 4) := by decide
theorem test_decode_ldImm : decode 0b0110101000101011 = .ok (.ldImm 10 0x2B) := by decide
theorem test_decode_addImm : decode 0b0111000111111111 = .ok (.addImm 1 0xFF) := by decide
theorem test_decode_ldReg : decode 0b1000000100100000 = .ok (.ldReg 1 2) := by decide
theorem test_decode_orReg : decode 0b1000000100100001 = .ok (.orReg 1 2) := by decide
theorem test_decode_andReg : decode 0b1000000100100010 = .ok (.andReg 1 2) := by decide
theorem test_decode_xorReg : decode 0b1000000100100011 = .ok (.xorReg 1 2) := by decide
theorem test_decode_addReg : decode 0b1000000100100100 = .ok (.addReg 1 2) := by decide
theorem test_decode_sub : decode 0b1000000100100101 = .ok (.sub 1 2) := by decide
theorem test_decode_shr : decode 0b1000000100100110 = .ok (.shr 1 2) := by decide
theorem test_decode_subn : decode 0b1000000100100111 = .ok (.subn 1 2) := by decide
theorem test_decode_shl : decode 0b1000111100011110 = .ok (.shl 15 1) := by decide
theorem test_decode_sneReg : decode 0b1001001101000000 = .ok (.sneReg 3 4) := by decide
theorem test_decode_ldI : decode 0b1010001011110000 = .ok (.ldI 0x2F0) := by decide
theorem test_decode_jpV0 : decode 0b1011001100000001 = .ok (.jpV0 0x301) := by decide
theorem test_decode_rnd : decode 0b1100000100001111 = .ok (.rnd 1 0x0F) := by decide
theorem test_decode_drw : decode 0b1101000100100101 = .ok (.drw 1 2 5) := by decide
theorem test_decode_skp : decode 0b1110010110011110 = .ok (.skp 5) := by decide
theorem test_decode_sknp : decode 0b1110010110100001 = .ok (.sknp 5) := by decide
theorem test_decode_ldVxDT : decode 0b1111001100000111 = .ok (.ldVxDT 3) := by decide
theorem test_decode_ldVxK : decode 0b1111010100001010 = .ok (.ldVxK 5) := by decide
theorem test_decode_ldDTVx : decode 0b1111001100010101 = .ok (.ldDTVx 3) := by decide
theorem test_decode_ldSTVx : decode 0b1111001100011000 = .ok (.ldSTVx 3) := by decide
theorem test_decode_addI : decode 0b1111100100011110 = .ok (.addI 9) := by decide
theorem test_decode_ldF : decode 0b1111010000101001 = .ok (.ldF 4) := by decide
theorem test_decode_ldB : decode 0b1111011100110011 = .ok (.ldB 7) := by decide
theorem test_decode_storeRegs : decode 0b1111000101010101 = .ok (.storeRegs 1) := by decide
theorem test_decode_loadRegs : decode 0b1111001001100101 = .ok (.loadRegs 2) := by decide

/-- 2.1: the n field of 5xyN and 9xyN is not examined (D2). -/
theorem test_decode_ignored_n :
    decode 0x5121 = .ok (.seReg 1 2) ∧ decode 0x912F = .ok (.sneReg 1 2) := by decide

/-- 2.6: the illegal words. -/
theorem test_decode_illegal :
    ([0x0000, 0x0123, 0x00E1, 0x01E0, 0x8128, 0x812F, 0xE19F, 0xF000, 0xF175, 0xF085] :
      List Word).all (fun w => (decode w).toOption.isNone) = true := by decide

/-- Bytes are read most significant first, and too few bytes are refused (20_memory.md R63). -/
theorem test_decodeBytes : decodeBytes [0x62, 0x34, 0x99] = .ok (.ldImm 2 0x34, [0x99]) ∧
    decodeBytes [0x62] = .error .truncated := by decide

theorem test_decodeTableWord : decodeTableWord 16 0xD125 = some (.drw 1 2 5) ∧
    decodeTableWord 16 0x0000 = none := by decide

/-! ## Single steps -/

/-- The reset state with these registers. -/
def regs (l : List (Reg × Byte)) : State :=
  l.foldl (fun s p => s.writeV p.1 p.2.toNat) State.reset

/-- The state after one Step over the word `w` placed at `pc`. -/
def run (w : Word) (s : State) : Option State :=
  match Machine.step (s.placeWord w) with
  | .next t => some t
  | .fault _ => none
  | .refused _ => none

/-- The fault record after that Step. -/
def faultOf (w : Word) (s : State) : Option FaultRecord := (run w s).bind fun t => t.fault

/-- The state that a run of the host's transitions reaches, and the outputs. -/
def played (ts : List Transition) (s : State) : Option (State × List Output) :=
  match runSchedule defaultFont ts s with
  | .next p => some p
  | .fault _ => none
  | .refused _ => none

/-! 2.1 -/

theorem test_jp : (run 0x1234 State.reset).map (·.pc) = some 0x234 := by decide
theorem test_jp_last : (run 0x1FFE { State.reset with pc := 0xFFE }).map (·.pc) = some 0xFFE := by
  decide
/-- S7. -/
theorem test_call : (run 0x2300 { State.reset with pc := 0x202 }).map
    (fun t => (t.pc, t.sp, t.stack[0])) = some (0x300, 1, 0x204) := by decide
theorem test_call_full : faultOf 0x2300 { State.reset with sp := 16 } =
    some ⟨.stackFault, some 0, 0x200, some 0x2300, some 0⟩ := by decide
/-- S7. -/
theorem test_ret : (run 0x00EE
    { State.reset with pc := 0x300, sp := 1, stack := State.reset.stack.set 0 0x204 }).map
    (fun t => (t.pc, t.sp)) = some (0x204, 0) := by decide
theorem test_ret_empty : faultOf 0x00EE State.reset =
    some ⟨.stackFault, some 1, 0x200, some 0x00EE, some 1⟩ := by decide
theorem test_seImm : (run 0x3100 (regs [])).map (·.pc) = some 0x204 ∧
    (run 0x3100 (regs [(1, 1)])).map (·.pc) = some 0x202 := by decide
theorem test_sneImm : (run 0x4211 (regs [(2, 0x10)])).map (·.pc) = some 0x204 ∧
    (run 0x4211 (regs [(2, 0x11)])).map (·.pc) = some 0x202 := by decide
theorem test_seReg : (run 0x5340 (regs [(3, 7), (4, 7)])).map (·.pc) = some 0x204 ∧
    (run 0x5340 (regs [(3, 7), (4, 8)])).map (·.pc) = some 0x202 := by decide
theorem test_sneReg : (run 0x9340 (regs [(3, 7), (4, 8)])).map (·.pc) = some 0x204 ∧
    (run 0x9340 (regs [(3, 7), (4, 7)])).map (·.pc) = some 0x202 := by decide
theorem test_jpV0 : (run 0xBFFF (regs [(0, 0xFF)])).map (·.pc) = some 0x10FE := by decide

/-! 2.2 -/

theorem test_ldImm : (run 0x6A2B { State.reset with pc := 0x201 }).map
    (fun t => (t.reg 10, t.pc)) = some (0x2B, 0x203) := by decide
theorem test_addImm : (run 0x7101 (regs [(1, 0xFF)])).map (fun t => (t.reg 1, t.reg 15)) =
    some (0, 0) := by decide
theorem test_ldReg : (run 0x8120 (regs [(2, 0x77)])).map (fun t => (t.reg 1, t.reg 2)) =
    some (0x77, 0x77) := by decide
theorem test_orReg : (run 0x8121 (regs [(1, 0xF0), (2, 0x0F), (15, 5)])).map
    (fun t => (t.reg 1, t.reg 15)) = some (0xFF, 5) := by decide
theorem test_andReg : (run 0x8122 (regs [(1, 0xF3), (2, 0x3F)])).map (·.reg 1) = some 0x33 := by
  decide
theorem test_xorReg : (run 0x8123 (regs [(1, 0xFF), (2, 0x0F)])).map (·.reg 1) = some 0xF0 := by
  decide
/-- S2. -/
theorem test_addReg : (run 0x8124 (regs [(1, 0xFF), (2, 0x01)])).map
    (fun t => (t.reg 1, t.reg 15)) = some (0, 1) := by decide
theorem test_addReg_operand_VF : (run 0x81F4 (regs [(1, 0xFE), (15, 0x03)])).map
    (fun t => (t.reg 1, t.reg 15)) = some (1, 1) := by decide
/-- S3. -/
theorem test_sub : (run 0x8125 (regs [(1, 0x03), (2, 0x05)])).map
    (fun t => (t.reg 1, t.reg 15)) = some (0xFE, 0) := by decide
theorem test_sub_equal : (run 0x8125 (regs [(1, 0x07), (2, 0x07)])).map
    (fun t => (t.reg 1, t.reg 15)) = some (0, 1) := by decide
theorem test_shr : (run 0x8126 (regs [(1, 0x05), (2, 0xF0)])).map
    (fun t => (t.reg 1, t.reg 2, t.reg 15)) = some (2, 0xF0, 1) := by decide
theorem test_subn : (run 0x8127 (regs [(1, 0x05), (2, 0x03)])).map
    (fun t => (t.reg 1, t.reg 15)) = some (0xFE, 0) := by decide
theorem test_shl : (run 0x812E (regs [(1, 0xFF), (2, 0x01)])).map
    (fun t => (t.reg 1, t.reg 2, t.reg 15)) = some (0xFE, 1, 1) := by decide
theorem test_shr_VF : (run 0x8F06 (regs [(15, 0x03)])).map (·.reg 15) = some 1 := by decide
theorem test_rnd_zero : (execRnd 1 0 State.reset = .next
    { State.reset.advance with draws := 1 }) := by
  simp [execRnd, State.draw, State.reset, State.writeV, State.advance, State.jumpTo]

/-! 2.3 -/

theorem test_ldI : (run 0xA2F0 { State.reset with idx := 0xFFFF }).map (·.idx) = some 0x2F0 := by
  decide
theorem test_addI : (run 0xF01E { regs [(0, 0x05)] with idx := 0x0FFE }).map (·.idx) =
    some 0x1003 := by decide
theorem test_addI_wraps : (run 0xF01E { regs [(0, 0x02)] with idx := 0xFFFF }).map (·.idx) =
    some 0x0001 := by decide
theorem test_ldF : (run 0xF029 (regs [(0, 0xFF)])).map (·.idx) = some 0x054B := by decide
theorem test_ldB : (run 0xF033 { regs [(0, 255)] with idx := 0xFFD }).map
    (fun t => [t.mem.get 0xFFD, t.mem.get 0xFFE, t.mem.get 0xFFF]) = some [2, 5, 5] := by decide
theorem test_ldB_fault : faultOf 0xF033 { regs [(0, 255)] with idx := 0xFFE } =
    some ⟨.memoryFault, some 1, 0x200, some 0xF033, some 0x1000⟩ := by decide
theorem test_storeRegs : (run 0xF155 { regs [(0, 0xAA), (1, 0xBB)] with idx := 0x300 }).map
    (fun t => (t.mem.get 0x300, t.mem.get 0x301, t.mem.get 0x302, t.idx)) =
    some (0xAA, 0xBB, 0, 0x300) := by decide
theorem test_storeRegs_fault : (run 0xFF55 { regs [(0, 1), (15, 9)] with idx := 0xFF1 }).map
    (fun t => (t.mem.get 0xFF1, t.fault)) =
    some (0, some ⟨.memoryFault, some 1, 0x200, some 0xFF55, some 0x1000⟩) := by decide
theorem test_loadRegs : (run 0xF265
    { State.reset with idx := 0x300, mem := [(0x300, 1), (0x301, 5), (0x302, 7)] }).map
    (fun t => (t.reg 0, t.reg 1, t.reg 2, t.reg 3, t.idx)) = some (1, 5, 7, 0, 0x303) := by decide
theorem test_loadRegs_glyph : (run 0xF065 { State.reset with idx := 0x050 }).map
    (fun t => (t.reg 0, t.idx)) = some (0xF0, 0x051) := by decide

/-- A glyph table that is not the default. -/
def otherFont : Font := Vector.replicate 80 0xAA

/-- R240: Reset copies FONT to 0x050 to 0x09F, whatever it is; the cells beside it are 0. -/
theorem test_reset_font :
    [0x04F, 0x050, 0x09F, 0x0A0].map (hostReset otherFont State.reset).mem.get =
    [0, 0xAA, 0xAA, 0] := by decide +kernel
/-- R29: the default table begins with glyph 0 and ends with glyph F. -/
theorem test_reset_font_default :
    [0x050, 0x054, 0x09B, 0x09F].map (hostReset defaultFont State.reset).mem.get =
    [0xF0, 0xF0, 0xF0, 0x80] := by decide +kernel

/-! 2.4 -/

/-- The cells that are 1. -/
def lit (f : Framebuffer) : List Nat := (List.range 2048).filter fun j => f.getLsbD j

/-- S5. -/
theorem test_cls : (run 0x00E0 { State.reset with fb := 5 }).map
    (fun t => (decide (t.fb = 0), t.redraw)) = some (true, true) := by decide +kernel
theorem test_drw_wraps : (run 0xD011
    { regs [(0, 200), (1, 100)] with idx := 0x300, mem := [(0x300, 0x81)] }).map
    (fun t => (t.pixel 8 4, t.pixel 9 4, t.pixel 15 4, t.reg 15)) =
    some (true, false, true, 0) := by decide +kernel
theorem test_drw_collides : (run 0xD011
    { State.reset with fb := 1, idx := 0x300, mem := [(0x300, 0xFF)] }).map
    (fun t => (t.fb.toNat, t.reg 15, t.redraw)) = some (0xFE, 1, true) := by decide +kernel

/-! 2.5 -/

theorem test_skp : (run 0xE59E { regs [(5, 0x0A)] with keys := 0x0400 }).map (·.pc) =
    some 0x204 ∧ (run 0xE59E (regs [(5, 0x0A)])).map (·.pc) = some 0x202 := by decide
theorem test_sknp : (run 0xE5A1 { regs [(5, 0x0A)] with keys := 0x0400 }).map (·.pc) =
    some 0x202 ∧ (run 0xE5A1 (regs [(5, 0x0A)])).map (·.pc) = some 0x204 := by decide
theorem test_sknp_fault : faultOf 0xE0A1 (regs [(0, 0x10)]) =
    some ⟨.keyIndexFault, none, 0x200, some 0xE0A1, some 16⟩ := by decide
/-- S10. -/
theorem test_ldVxK_waits : (run 0xF50A (regs [(5, 0xFF)])).map (fun t => (t.pc, t.reg 5)) =
    some (0x200, 0xFF) := by decide
theorem test_ldVxK : (run 0xF50A { regs [(5, 0xFF)] with keys := 0x1210 }).map
    (fun t => (t.pc, t.reg 5)) = some (0x202, 0x04) := by decide
theorem test_ldVxDT : (run 0xF307 { State.reset with dt := 0x3C }).map (·.reg 3) = some 0x3C := by
  decide
theorem test_ldDTVx : (run 0xF315 (regs [(3, 0x3C)])).map (·.dt) = some 0x3C := by decide
theorem test_ldSTVx : (run 0xF318 (regs [(3, 0x03)])).map (·.st) = some 0x03 := by decide
/-- S11. -/
theorem test_tones : (played (List.replicate 4 .timerTick) { State.reset with st := 3 }).map
    (fun p => (p.1.st, p.2)) = some (0, [.tone true, .tone true, .tone true, .tone false]) := by
  decide
theorem test_tick : (played [.timerTick] { State.reset with dt := 255, st := 2 }).map
    (fun p => (p.1.dt, p.1.st)) = some (254, 1) := by decide

/-! 2.6 and 2.7 -/

theorem test_fetch_fault : faultOf 0 State.reset =
    some ⟨.decodeFault, none, 0x200, some 0, none⟩ := by decide
theorem test_loadProgram_too_long :
    (loadProgram (List.replicate 3585 0) State.reset).fault =
    some ⟨.loadFault, none, 0x200, none, some 3585⟩ := by
  rw [loadProgram_fault _ _ (by rw [List.length_replicate]; omega), State.raiseLoad,
    State.raise_fault, List.length_replicate]
  rfl
theorem test_loadProgram : (loadProgram [0x12, 0x34] State.reset).mem =
    [(0x200, 0x12), (0x201, 0x34)] := by decide
theorem test_setKeys : (setKeys 0x0008 State.reset).keyPressed 3 = true ∧
    (setKeys 0x0008 State.reset).keyPressed 2 = false := by decide
theorem test_ackRedraw : (ackRedraw { State.reset with redraw := true }).redraw = false := by
  decide
theorem test_clockTick : clockTick defaultFont 1 (State.reset.placeWord 0x1200) =
    .next (State.reset.placeWord 0x1200, [.nothing, .tone false]) := rfl
/-- S7, through memory. -/
theorem test_call_then_ret : (played [.loadProgram [0x22, 0x02, 0x00, 0xEE], .step, .step]
    State.reset).map (fun p => (p.1.pc, p.1.sp)) = some (0x202, 0) := by decide

/-! ## Witnesses

One for each statement of Certificates/Slice0/Obligations.lean that has hypotheses: a concrete state
and operands that meet them, at a boundary value for each clause. -/

theorem witness_DecodeOfEncode : Instr.wellFormed (.drw 15 15 15) = true ∧
    Instr.wellFormed (.jp 0xFFF) = true ∧ Instr.wellFormed (.call 0) = true := by decide
theorem witness_EncodeOfDecode : decode 0x534F = .ok (.seReg 3 4) ∧
    decode 0xFF65 = .ok (.loadRegs 15) := by decide
/-- Each disjunct at words where it meets the next legal word, and legal words outside all four. -/
theorem witness_IllegalWords :
    decode 0x00E1 = .error .illegalFamily0 ∧ decode 0x0FFF = .error .illegalFamily0 ∧
    decode 0x8008 = .error .illegalFamily8 ∧ decode 0x8FFF = .error .illegalFamily8 ∧
    decode 0xE09D = .error .illegalFamilyE ∧ decode 0xF066 = .error .illegalFamilyF ∧
    (decode 0x00EE).toOption.isSome = true ∧ (decode 0x8FFE).toOption.isSome = true ∧
    (decode 0xEFA1).toOption.isSome = true ∧ (decode 0xFF65).toOption.isSome = true := by decide

/-- An instruction in the last two bytes of memory. -/
def atTop : State := { State.reset with pc := 0xFFE, mem := [(0xFFE, 0xFF), (0xFFF, 0x1E)] }

theorem witness_StepRuns : atTop.fault = none ∧ atTop.pc.toNat ≤ 0xFFE ∧
    decode (BitVec.ofNat 16 ((atTop.mem.get atTop.pc.toNat).toNat * 256 +
      (atTop.mem.get (atTop.pc.toNat + 1)).toNat)) = .ok (.addI 15) := by decide
theorem witness_FetchOutside :
    { State.reset with pc := 0xFFF }.fault = none ∧
    { State.reset with pc := 0xFFF }.pc.toNat > 0xFFE ∧
    { State.reset with pc := 0xFFFF }.pc.toNat > 0xFFE := by decide
theorem witness_IllegalWord :
    { State.reset with pc := 0xFFE }.fault = none ∧
    { State.reset with pc := 0xFFE }.pc.toNat ≤ 0xFFE ∧
    (0 : Word).toNat = (State.reset.mem.get 0xFFE).toNat * 256 + (State.reset.mem.get 0xFFF).toNat ∧
    decode 0 = .error .illegalFamily0 := by decide
/-- A step that faults in its fetch, and one that faults after it. -/
theorem witness_FaultingStep :
    (∃ t, step { State.reset with pc := 0x1000 } = .next t ∧ t.fault ≠ none) ∧
    ∃ t, step (State.reset.placeWord 0x00EE) = .next t ∧ t.fault ≠ none :=
  ⟨⟨_, rfl, by decide⟩, ⟨_, rfl, by decide⟩⟩
theorem witness_InstructionFaults : State.reset.fault = none ∧ raisesFault .ret State.reset ∧
    raisesFault (.drw 0 0 1) { State.reset with idx := 0x1000 } ∧
    ¬ raisesFault (.drw 0 0 1) { State.reset with idx := 0xFFF } :=
  ⟨rfl, rfl, ⟨by decide, by decide⟩, fun h => absurd h.2 (by decide)⟩

/-- A machine that stopped on an illegal word. -/
def stopped : State := State.reset.raiseDecode 0

theorem witness_OnlyReset : stopped.fault ≠ none ∧
    Transition.reset ∉ [.ackRedraw, .loadProgram [0x12, 0x00], .setKeys 1, .readFault] ∧
    ∃ p, runSchedule defaultFont
      [.ackRedraw, .loadProgram [0x12, 0x00], .setKeys 1, .readFault] stopped = .next p :=
  ⟨by decide, by decide, _, rfl⟩

theorem reset_inv : State.reset.Inv :=
  ⟨rfl, by decide, fun k hk => absurd hk (Nat.not_lt_zero _), fun _ hr => nomatch hr⟩

theorem witness_StepKeepsInvariant : State.reset.Inv ∧ ∃ t, step State.reset = .next t :=
  ⟨reset_inv, _, rfl⟩
theorem witness_EverySchedule : State.reset.Inv ∧
    ∃ p, runSchedule otherFont
      [.reset, .loadProgram [0x12, 0x00], .step, .timerTick, .setKeys 1, .step] State.reset =
      .next p := ⟨reset_inv, _, rfl⟩

/-- An instruction of each clause that does change the component. -/
theorem witness_EachComponent :
    (∃ t, exec (.ldB 0) { State.reset with idx := 0x050 } = .next t ∧ t.mem ≠ State.reset.mem) ∧
    (∃ t, exec (.ldI 1) State.reset = .next t ∧ t.idx ≠ State.reset.idx) ∧
    (∃ t, exec (.call 1) State.reset = .next t ∧ t.stack ≠ State.reset.stack ∧
      t.sp ≠ State.reset.sp) ∧
    (∃ t, exec (.ldDTVx 1) (regs [(1, 1)]) = .next t ∧ t.dt ≠ State.reset.dt) ∧
    (∃ t, exec (.ldSTVx 1) (regs [(1, 1)]) = .next t ∧ t.st ≠ State.reset.st) ∧
    (∃ t, exec .cls { State.reset with fb := 1 } = .next t ∧ t.fb ≠ 1 ∧
      t.redraw ≠ State.reset.redraw) ∧
    ∃ t, exec (.rnd 1 1) State.reset = .next t ∧ t.draws ≠ State.reset.draws :=
  ⟨⟨_, rfl, by decide⟩, ⟨_, rfl, by decide⟩, ⟨_, rfl, by decide, by decide⟩, ⟨_, rfl, by decide⟩,
    ⟨_, rfl, by decide⟩, ⟨_, rfl, by decide +kernel, by decide⟩, ⟨_, rfl, by decide⟩⟩
/-- A register changed as the destination, and VF changed as a flag. -/
theorem witness_RegistersChange :
    (∃ t, exec (.ldImm 14 1) State.reset = .next t ∧ t.reg 14 ≠ State.reset.reg 14) ∧
    ∃ t, exec (.shr 1 0) (regs [(1, 1)]) = .next t ∧ t.reg 15 ≠ (regs [(1, 1)]).reg 15 :=
  ⟨⟨_, rfl, by decide⟩, ⟨_, rfl, by decide⟩⟩
theorem witness_FramebufferIsObserved : (∀ x y n, Instr.cls ≠ .drw x y n) ∧
    ∀ x y n, Instr.loadRegs 15 ≠ .drw x y n :=
  ⟨fun _ _ _ h => (nomatch h), fun _ _ _ h => (nomatch h)⟩
theorem witness_Jumps : (0 : Nat) < 4096 ∧ 0xFFF < 4096 := by decide
theorem witness_Call : 0xFFF < 4096 ∧ State.reset.sp.val < 16 ∧
    { State.reset with sp := 15 }.sp.val < 16 ∧ { State.reset with sp := 16 }.sp.val = 16 := by
  decide
theorem witness_Return : { State.reset with sp := 16 }.sp.val = (15 : Fin 16).val + 1 ∧
    { State.reset with sp := 1 }.sp.val = (0 : Fin 16).val + 1 ∧ State.reset.sp.val = 0 := by decide
theorem witness_CallThenReturn : { State.reset with sp := 15 }.sp.val < 16 := by decide
theorem witness_AddAndSubtract : (14 : Reg) ≠ 15 := by decide
theorem witness_LoadIndex : 0xFFF < 4096 := by decide
theorem witness_DecimalStore : State.reset.mem.wf = true ∧ atTop.mem.wf = true ∧
    { State.reset with idx := 0xFFD }.idx.toNat ≤ 0xFFD ∧
    { State.reset with idx := 0xFFE }.idx.toNat > 0xFFD := by decide
/-- For LD [I], Vx, LD Vx, [I] and the two after each other. -/
theorem witness_BlockStore : atTop.mem.wf = true ∧
    { atTop with idx := 0xFF0 }.idx.toNat + (15 : Reg).val ≤ 0xFFF ∧
    { atTop with idx := 0xFF1 }.idx.toNat + (15 : Reg).val > 0xFFF ∧
    { atTop with idx := 0xFFF }.idx.toNat + (0 : Reg).val ≤ 0xFFF := by decide
theorem witness_StoreIsSeen :
    State.reset.mem.wf = true ∧
    { State.reset with idx := 0x202 }.idx.toNat + (1 : Reg).val ≤ 0xFFF ∧
    1 ≤ (1 : Reg).val ∧
    { State.reset with idx := 0x202 }.idx = { State.reset with idx := 0x202 }.pc + 2 := by decide
/-- Both clauses, n = 0 above memory among them. -/
theorem witness_Draw :
    (0 < 16 ∧ (0 = 0 ∨ { State.reset with idx := 0xFFFF }.idx.toNat + 0 - 1 ≤ 0xFFF)) ∧
    15 < 16 ∧ { State.reset with idx := 0xFF1 }.idx.toNat + 15 - 1 ≤ 0xFFF ∧
    (1 ≤ 15 ∧ { State.reset with idx := 0xFF2 }.idx.toNat + 15 - 1 > 0xFFF) := by decide
/-- A sprite whose leftmost pixel covers a set pixel, so that VF becomes 1, and a sprite of no rows,
so that it becomes 0. -/
theorem witness_Draw_collision :
    (∃ px py, px < 64 ∧ py < 32 ∧
      spriteCovers { State.reset with idx := 0x050, fb := 1 } 0 0 1 px py ∧
      { State.reset with idx := 0x050, fb := 1 }.pixel px py = true) ∧
    ¬ ∃ px py, px < 64 ∧ py < 32 ∧ spriteCovers State.reset 0 0 0 px py ∧
      State.reset.pixel px py = true :=
  ⟨⟨0, 0, by decide, by decide, ⟨0, by decide, 0, by decide, by decide, rfl, rfl⟩,
    by decide +kernel⟩, fun ⟨_, _, _, _, ⟨_, h, _⟩, _⟩ => absurd h (Nat.not_lt_zero _)⟩
theorem witness_DrawingTwice : 5 < 16 ∧ (0 : Reg) ≠ 15 ∧ (14 : Reg) ≠ 15 ∧
    (5 = 0 ∨ { State.reset with idx := 0xFFB }.idx.toNat + 5 - 1 ≤ 0xFFF) := by decide
theorem witness_KeySkips : ((regs [(0, 15)]).reg 0).toNat ≤ 15 ∧
    ((regs [(0, 16)]).reg 0).toNat > 15 := by
  decide
theorem witness_KeyWait : (∀ j, j < 16 → State.reset.keys.getLsbD j = false) ∧
    ((15 : Nat) < 16 ∧ { State.reset with keys := 0x8000 }.keys.getLsbD 15 = true ∧
      ∀ j, j < 15 → { State.reset with keys := 0x8000 }.keys.getLsbD j = false) ∧
    { State.reset with keys := 0xFFFF }.keys.getLsbD 0 = true := by decide
theorem witness_TimerTick : State.reset.fault = none ∧ stopped.fault ≠ none := by decide
theorem witness_SoundTimer : { State.reset with st := 255 }.fault = none := by decide
theorem witness_LoadProgram : State.reset.mem.wf = true ∧
    (List.replicate 3584 (0 : Byte)).length ≤ 3584 ∧
    (List.replicate 3585 (0 : Byte)).length > 3584 :=
  ⟨rfl, by rw [List.length_replicate], by rw [List.length_replicate]; omega⟩
theorem witness_FirstStep : (List.replicate 3582 (0 : Byte)).length ≤ 3582 ∧
    decode (BitVec.ofNat 16 ((0x12 : Byte).toNat * 256 + (0x00 : Byte).toNat)) = .ok (.jp 0x200) :=
  ⟨by rw [List.length_replicate], by decide⟩

end Sys2Proof.Tests
end

section
/-! Who writes what beside the registers, the pc and the fault record (10_state.md R20). -/

namespace Sys2Proof.Machine

variable {s t u : State}

/-- `t` is `u` but for the registers, the program counter and the fault record. -/
def State.SameBesideRegs (u t : State) : Prop :=
  ∃ v p r, t = { u with v := v, pc := p, fault := r }

/-- A skip changes the program counter only. -/
theorem State.sameBesideRegs_skipIf (c : Bool) : s.SameBesideRegs (s.skipIf c) := by
  rw [State.skipIf_eq]
  exact ⟨_, _, _, rfl⟩

/-- `Writes s i u`: `u` is `s` after what the instruction `i` may write beside the registers, the
program counter and the fault record, the values written left open: the "written by" column of
10_state.md R20, row by row. An instruction that raises a fault writes none of it (R68, R207), so
`kept` is open to every instruction; RET writes the depth alone (R30, D25). -/
inductive Writes (s : State) : Instr → State → Prop
  | kept {i : Instr} : Writes s i s
  | ldB {x : Reg} (m : Memory) : Writes s (.ldB x) (s.withMem m)
  | storeRegs {x : Reg} (m : Memory) : Writes s (.storeRegs x) (s.withMem m)
  | ldI {nnn : Nat} (n : Nat) : Writes s (.ldI nnn) (s.writeI n)
  | addI {x : Reg} (n : Nat) : Writes s (.addI x) (s.writeI n)
  | ldF {x : Reg} (n : Nat) : Writes s (.ldF x) (s.writeI n)
  | loadRegs {x : Reg} (n : Nat) : Writes s (.loadRegs x) (s.writeI n)
  | call {nnn : Nat} (k : Vector Word 16) (d : Fin 17) : Writes s (.call nnn) (s.withStack k d)
  | ret (d : Fin 17) : Writes s .ret (s.withStack s.stack d)
  | ldDTVx {x : Reg} (b : Byte) : Writes s (.ldDTVx x) (s.writeDT b)
  | ldSTVx {x : Reg} (b : Byte) : Writes s (.ldSTVx x) (s.writeST b)
  | cls (f : Framebuffer) : Writes s .cls (s.showFrame f)
  | drw {x y : Reg} {n : Nat} (f : Framebuffer) : Writes s (.drw x y n) (s.showFrame f)
  | rnd {x : Reg} {nn : Byte} : Writes s (.rnd x nn) s.draw.2

/-- Every instruction answers a next state, reached by its writes beside the registers and then a
change of the registers, the program counter or the fault record. -/
theorem exec_writes (i : Instr) (s : State) :
    ∃ t u, exec i s = .next t ∧ Writes s i u ∧ u.SameBesideRegs t :=
  match i with
  | .jp _ | .jpV0 _ | .ldImm _ _ | .addImm _ _ | .ldReg _ _ | .orReg _ _ | .andReg _ _
  | .xorReg _ _ | .addReg _ _ | .sub _ _ | .shr _ _ | .subn _ _ | .shl _ _ | .ldVxDT _ =>
    ⟨_, _, rfl, .kept, _, _, _, rfl⟩
  | .seImm _ _ | .sneImm _ _ | .seReg _ _ | .sneReg _ _ =>
    ⟨_, _, rfl, .kept, State.sameBesideRegs_skipIf _⟩
  | .ldI _ => ⟨_, _, rfl, .ldI _, _, _, _, rfl⟩
  | .addI _ => ⟨_, _, rfl, .addI _, _, _, _, rfl⟩
  | .ldF _ => ⟨_, _, rfl, .ldF _, _, _, _, rfl⟩
  | .ldDTVx _ => ⟨_, _, rfl, .ldDTVx _, _, _, _, rfl⟩
  | .ldSTVx _ => ⟨_, _, rfl, .ldSTVx _, _, _, _, rfl⟩
  | .cls => ⟨_, _, rfl, .cls _, _, _, _, rfl⟩
  | .rnd _ _ => ⟨_, _, rfl, .rnd, _, _, _, rfl⟩
  | .skp x =>
    if h : (s.reg x).toNat ≤ 15 then
      ⟨_, _, execSkp_ok s x h, .kept, State.sameBesideRegs_skipIf _⟩
    else ⟨_, _, execSkp_fault s x (by omega), .kept, _, _, _, rfl⟩
  | .sknp x =>
    if h : (s.reg x).toNat ≤ 15 then
      ⟨_, _, execSknp_ok s x h, .kept, State.sameBesideRegs_skipIf _⟩
    else ⟨_, _, execSknp_fault s x (by omega), .kept, _, _, _, rfl⟩
  | .ldVxK x =>
    match execLdVxK_cases s x with
    | .inl ⟨_, h⟩ => ⟨_, _, h, .kept, _, _, _, rfl⟩
    | .inr ⟨_, _, _, h⟩ => ⟨_, _, h, .kept, _, _, _, rfl⟩
  | .call nnn =>
    if h : s.sp.val < 16 then ⟨_, _, execCall_ok s nnn h, .call _ _, _, _, _, rfl⟩
    else ⟨_, _, execCall_full s nnn (by omega), .kept, _, _, _, rfl⟩
  | .ret =>
    if h : 0 < s.sp.val then ⟨_, _, execRet_ok s h, .ret _, _, _, _, rfl⟩
    else ⟨_, _, execRet_empty s (by omega), .kept, _, _, _, rfl⟩
  | .ldB x =>
    if h : s.idx.toNat + 2 ≤ 0xFFF then ⟨_, _, execLdB_ok s x h, .ldB _, _, _, _, rfl⟩
    else ⟨_, _, execLdB_fault s x (by omega), .kept, _, _, _, rfl⟩
  | .storeRegs x =>
    if h : s.idx.toNat + x.val ≤ 0xFFF then
      ⟨_, _, execStoreRegs_ok s x h, .storeRegs _, _, _, _, rfl⟩
    else ⟨_, _, execStoreRegs_fault s x (by omega), .kept, _, _, _, rfl⟩
  | .loadRegs x =>
    if h : s.idx.toNat + x.val ≤ 0xFFF then
      ⟨_, _, execLoadRegs_ok s x h, .loadRegs _, _, _, _, rfl⟩
    else ⟨_, _, execLoadRegs_fault s x (by omega), .kept, _, _, _, rfl⟩
  | .drw x y n =>
    if h : n = 0 ∨ s.idx.toNat + n - 1 ≤ 0xFFF then
      ⟨_, _, execDrw_ok s x y n h, .drw _, _, _, _, rfl⟩
    else ⟨_, _, execDrw_fault s x y n (by omega) (by omega), .kept, _, _, _, rfl⟩

/-- What an instruction that answered `t` wrote. -/
theorem writes_of_exec {i : Instr} (h : exec i s = .next t) :
    ∃ u, Writes s i u ∧ u.SameBesideRegs t := by
  obtain ⟨t', u, ht', hu⟩ := exec_writes i s
  obtain rfl : t' = t := Host.Outcome.next.inj (ht'.symm.trans h)
  exact ⟨u, hu⟩

/-- Settles O14: by `writes_of_exec` every instruction is one of the fourteen rows of `Writes`, and
each row changes the components it names and no others. -/
theorem eachComponentHasOnlyItsWriters : Obligations.EachComponentHasOnlyItsWriters := by
  unfold Obligations.EachComponentHasOnlyItsWriters
  intro i s t h
  obtain ⟨u, hu, v, p, r, rfl⟩ := writes_of_exec h
  cases hu with
  | rnd => simp [State.draw]
  | _ => simp

end Sys2Proof.Machine
end

section
/-! Jumps and skips set the program counter and change no other component
(40_control_transfer.md R121, R123 to R127). -/

namespace Sys2Proof.Machine

variable (s : State)

/-- A jump changes the program counter only. -/
theorem State.frame_jumpTo (n : Nat) : Frame s (s.jumpTo n) [] [.pc] := by
  constructor <;> simp

/-- A skip changes the program counter only. -/
theorem State.frame_skipIf (c : Bool) : Frame s (s.skipIf c) [] [.pc] := by
  rw [State.skipIf_eq]
  exact s.frame_jumpTo _

/-- A jump goes to its target unreduced when the target fits the program counter. -/
theorem State.jumpTo_pc_toNat {n : Nat} (h : n < 65536) : (s.jumpTo n).pc.toNat = n := by
  rw [State.jumpTo_pc, BitVec.toNat_ofNat]
  exact Nat.mod_eq_of_lt h

/-- Settles O18: both instructions are one `State.jumpTo`, and the largest target, 0xFFF + 0xFF,
fits 16 bits, so no sum wraps. -/
theorem jumpsSetOnlyTheProgramCounter : Obligations.JumpsSetOnlyTheProgramCounter := by
  unfold Obligations.JumpsSetOnlyTheProgramCounter
  intro nnn s hnnn
  have hsum : nnn + (s.reg 0).toNat < 65536 := by have := (s.reg 0).isLt; omega
  exact ⟨⟨_, rfl, s.jumpTo_pc_toNat (by omega), s.frame_jumpTo _⟩,
    ⟨_, rfl, s.jumpTo_pc_toNat hsum, s.frame_jumpTo _⟩⟩

/-- A skip on a condition `p`. -/
theorem State.skipIf_pc_of_decide (p : Prop) [Decidable p] :
    (s.skipIf (decide p)).pc = s.pc + if p then 4 else 2 := by
  simp [State.skipIf_pc]

/-- A skip on the negation of `p`. -/
theorem State.skipIf_pc_of_decide_not (p : Prop) [Decidable p] :
    (s.skipIf (decide ¬p)).pc = s.pc + if p then 2 else 4 := by
  rw [State.skipIf_pc_of_decide, ite_not]

/-- Settles O22: each of the four is one `State.skipIf` on its comparison or on the negation of
it. -/
theorem compareSkipsAdvanceByFourOrTwo : Obligations.CompareSkipsAdvanceByFourOrTwo := by
  unfold Obligations.CompareSkipsAdvanceByFourOrTwo
  intro x y nn s
  exact ⟨⟨_, rfl, s.frame_skipIf _, s.skipIf_pc_of_decide _⟩,
    ⟨_, rfl, s.frame_skipIf _, s.skipIf_pc_of_decide_not _⟩,
    ⟨_, rfl, s.frame_skipIf _, s.skipIf_pc_of_decide _⟩,
    ⟨_, rfl, s.frame_skipIf _, s.skipIf_pc_of_decide_not _⟩⟩

end Sys2Proof.Machine
end

section
/-! The instructions that write one result register and no flag: the two loads, the addition of an
immediate and the three logic operations (41_alu.md R140 to R145). -/

namespace Sys2Proof.Machine

variable (s : State)

/-- Writing one register and going on to the next instruction changes that register and the program
counter only. -/
theorem State.frame_writeV_advance (x : Reg) (n : Nat) :
    Frame s (s.writeV x n).advance [x] [.pc] := by
  constructor
  case regs =>
    intro r hr
    rw [State.advance_reg, s.reg_writeV_of_ne x r n (List.ne_of_not_mem_cons hr)]
  all_goals simp

variable {s}

/-- The template of R140 to R145: an instruction whose execution is one register write and
`pc + 2` leaves the byte `b` it wrote in its destination and touches no flag. -/
theorem exec_writes_one_register {i : Instr} {x : Reg} {n : Nat} {b : Byte}
    (hexec : exec i s = .next (s.writeV x n).advance) (hb : BitVec.ofNat 8 n = b) :
    ∃ t, exec i s = .next t ∧ t.reg x = b ∧ t.pc = s.pc + 2 ∧ Frame s t [x] [.pc] := by
  refine ⟨_, hexec, ?_, State.advance_pc_eq _, s.frame_writeV_advance x n⟩
  rw [State.advance_reg, State.reg_writeV_same, hb]

/-- Settles O23: each of the three is one register write, of a byte's own value or of the sum of
two, which the write reduces modulo 256. -/
theorem loadsAndAddImmediateWriteTheirDestination :
    Obligations.LoadsAndAddImmediateWriteTheirDestination := by
  unfold Obligations.LoadsAndAddImmediateWriteTheirDestination
  intro x y nn s
  exact ⟨exec_writes_one_register (exec_ldImm s x nn) (by simp),
    exec_writes_one_register (exec_addImm s x nn) (by simp [BitVec.ofNat_add]),
    exec_writes_one_register (exec_ldReg s x y) (by simp)⟩

/-- Settles O24: each of the three is one register write, and the bitwise operation on the values
of two bytes is the value of the operation on the bytes. -/
theorem logicWritesOnlyItsDestination : Obligations.LogicWritesOnlyItsDestination := by
  unfold Obligations.LogicWritesOnlyItsDestination
  intro x y s
  exact ⟨exec_writes_one_register (exec_orReg s x y) (by simp [BitVec.ofNat_or]),
    exec_writes_one_register (exec_andReg s x y) (by simp [BitVec.ofNat_and]),
    exec_writes_one_register (exec_xorReg s x y) (by simp [BitVec.ofNat_xor])⟩

end Sys2Proof.Machine
end

section
/-! Loads of the index register write `I` and go on to the next instruction (42_index_memory.md
R160). -/

namespace Sys2Proof.Machine

variable (s : State)

/-- Writing `I` and going on to the next instruction changes `I` and the program counter only. -/
theorem State.frame_writeI_advance (n : Nat) : Frame s (s.writeI n).advance [] [.idx, .pc] := by
  constructor <;> simp

/-- `I` holds the number written to it unreduced when the number fits 16 bits. -/
theorem State.writeI_idx_toNat {n : Nat} (h : n < 65536) : (s.writeI n).idx.toNat = n := by
  rw [State.writeI_idx, BitVec.toNat_ofNat]
  exact Nat.mod_eq_of_lt h

/-- Settles O28: the instruction is one `State.writeI` and `pc + 2`, and a 12-bit address fits the
16 bits of `I`. -/
theorem loadIndexSetsTwelveBitAddress : Obligations.LoadIndexSetsTwelveBitAddress := by
  unfold Obligations.LoadIndexSetsTwelveBitAddress
  intro nnn s hnnn
  have hidx : (s.writeI nnn).idx.toNat = nnn := s.writeI_idx_toNat (by omega)
  exact ⟨_, exec_ldI s nnn, hidx, State.advance_pc_eq _, s.frame_writeI_advance nnn⟩

end Sys2Proof.Machine
end

section
/-! The framebuffer instructions: what CLS and one DRW do to every pixel, to VF and to the rest of
the state, and so what two DRW do, and who observes the framebuffer (43_display.md R170 to R174). -/

namespace Sys2Proof.Machine

variable (s : State)

/-! ## Pixels -/

/-- Framebuffers that show the same pixels are the same framebuffer (10_state.md R33). -/
theorem State.fb_eq_of_pixel_eq {s t : State}
    (h : ∀ px py, px < 64 → py < 32 → s.pixel px py = t.pixel px py) : s.fb = t.fb := by
  refine BitVec.eq_of_getLsbD_eq fun j hj => ?_
  have hcell : pixelCell (j % 64) (j / 64) = j := Nat.div_add_mod' j 64
  have hpixel := h (j % 64) (j / 64) (by omega) (by omega)
  rwa [State.pixel, State.pixel, hcell] at hpixel

/-! ## CLS -/

/-- Showing a frame and going on to the next instruction changes the framebuffer, the redraw flag
and the program counter only. -/
theorem State.frame_showFrame_advance (f : Framebuffer) :
    Frame s (s.showFrame f).advance [] [.fb, .redraw, .pc] := by
  constructor <;> simp

/-- Settles O35: CLS shows the frame in which every bit is 0 and goes on. -/
theorem clearScreenZeroesEveryPixel : Obligations.ClearScreenZeroesEveryPixel := by
  unfold Obligations.ClearScreenZeroesEveryPixel
  intro s
  have hpixel : ∀ px py, px < 64 → py < 32 → (s.showFrame 0).advance.pixel px py = false := by
    simp [State.pixel]
  exact ⟨_, exec_cls s, hpixel, rfl, State.advance_pc_eq _, s.frame_showFrame_advance 0⟩

/-! ## One DRW -/

/-- The state after DRW of a sprite whose rows are in memory. -/
def State.drawSprite (x y : Reg) (n : Nat) : State :=
  ((s.showFrame (drawCells s.fb (s.drwCells x y n)).1).writeV flagReg
    (collisionFlag (drawCells s.fb (s.drwCells x y n)).2)).advance

theorem exec_drw_drawSprite (x y : Reg) (n : Nat) (h : n = 0 ∨ s.idx.toNat + n - 1 ≤ 0xFFF) :
    exec (.drw x y n) s = .next (s.drawSprite x y n) :=
  execDrw_ok s x y n h

theorem State.drawSprite_reg_of_ne (x y r : Reg) (n : Nat) (h : r ≠ 15) :
    (s.drawSprite x y n).reg r = s.reg r :=
  State.reg_writeV_of_ne _ flagReg r _ h

theorem State.drawSprite_reg_flag (x y : Reg) (n : Nat) : (s.drawSprite x y n).reg 15 =
    BitVec.ofNat 8 (collisionFlag (drawCells s.fb (s.drwCells x y n)).2) :=
  State.reg_writeV_same _ flagReg _

variable {s} {x y : Reg} {n px py : Nat}

/-- The cells a DRW toggles are the pixels its sprite covers (R171). -/
theorem State.mem_drwCells_iff_covers (hpx : px < 64) : pixelCell px py ∈ s.drwCells x y n ↔
    spriteCovers s (s.reg x).toNat (s.reg y).toNat n px py :=
  mem_spriteCells_iff_covers s _ _ n px py hpx

/-- Every cell a DRW toggles is that of a pixel on the screen (R172). -/
theorem State.exists_pixel_of_mem_drwCells {j : Nat} (h : j ∈ s.drwCells x y n) :
    ∃ px py, px < 64 ∧ py < 32 ∧ j = pixelCell px py := by
  obtain ⟨r, _, col, _, _, hcell⟩ := (mem_spriteCells _ _ _ j).1 h
  exact ⟨_, _, Nat.mod_lt _ (by decide), Nat.mod_lt _ (by decide), hcell⟩

/-- DRW inverts exactly the pixels whose cells its sprite toggles. -/
theorem State.drawSprite_pixel (hn : n ≤ 32) (hpx : px < 64) (hpy : py < 32) :
    (s.drawSprite x y n).pixel px py =
      (s.pixel px py ^^ decide (pixelCell px py ∈ s.drwCells x y n)) :=
  drawCells_fst s.fb _ (s.nodup_drwCells x y n hn) _ (pixelCell_lt hpx hpy)

/-- A pixel the sprite covers is inverted (R172). -/
theorem State.drawSprite_pixel_of_covers (hn : n ≤ 32) (hpx : px < 64) (hpy : py < 32)
    (h : spriteCovers s (s.reg x).toNat (s.reg y).toNat n px py) :
    (s.drawSprite x y n).pixel px py = !s.pixel px py := by
  simp [State.drawSprite_pixel hn hpx hpy, (State.mem_drwCells_iff_covers hpx).2 h]

/-- A pixel the sprite does not cover is left alone (R172). -/
theorem State.drawSprite_pixel_of_not_covers (hn : n ≤ 32) (hpx : px < 64) (hpy : py < 32)
    (h : ¬ spriteCovers s (s.reg x).toNat (s.reg y).toNat n px py) :
    (s.drawSprite x y n).pixel px py = s.pixel px py := by
  have hmem : pixelCell px py ∉ s.drwCells x y n := mt (State.mem_drwCells_iff_covers hpx).1 h
  simp [State.drawSprite_pixel hn hpx hpy, hmem]

variable (s x y n) in
/-- VF is a bit after DRW. -/
theorem State.drawSprite_flag_eq_one_or_zero :
    (s.drawSprite x y n).reg 15 = 1 ∨ (s.drawSprite x y n).reg 15 = 0 := by
  rw [State.drawSprite_reg_flag]
  cases (drawCells s.fb (s.drwCells x y n)).2 with
  | true => exact .inl rfl
  | false => exact .inr rfl

variable (s x y n) in
/-- VF is 1 after DRW exactly when the sprite loop collided. -/
theorem State.drawSprite_flag_eq_one_iff_collided : (s.drawSprite x y n).reg 15 = 1 ↔
    (drawCells s.fb (s.drwCells x y n)).2 = true := by
  rw [State.drawSprite_reg_flag]
  cases (drawCells s.fb (s.drwCells x y n)).2 <;> decide

/-- VF is 1 after DRW exactly when a pixel the sprite covers was set (R172). -/
theorem State.drawSprite_flag_eq_one_iff (hn : n ≤ 32) : (s.drawSprite x y n).reg 15 = 1 ↔
    ∃ px py, px < 64 ∧ py < 32 ∧
      spriteCovers s (s.reg x).toNat (s.reg y).toNat n px py ∧ s.pixel px py = true := by
  rw [State.drawSprite_flag_eq_one_iff_collided, drawCells_snd _ _ (s.nodup_drwCells x y n hn),
    List.any_eq_true]
  constructor
  · rintro ⟨j, hj, hset⟩
    obtain ⟨px, py, hpx, hpy, rfl⟩ := State.exists_pixel_of_mem_drwCells hj
    exact ⟨px, py, hpx, hpy, (State.mem_drwCells_iff_covers hpx).1 hj, hset⟩
  · rintro ⟨px, py, hpx, _, hcov, hset⟩
    exact ⟨_, (State.mem_drwCells_iff_covers hpx).2 hcov, hset⟩

/-! ## Two DRW of one sprite (R173) -/

/-- With neither coordinate in VF, the sprite of a second DRW covers what that of the first did. -/
theorem State.drawSprite_covers (hx : x ≠ 15) (hy : y ≠ 15) :
    spriteCovers (s.drawSprite x y n) ((s.drawSprite x y n).reg x).toNat
      ((s.drawSprite x y n).reg y).toNat n px py ↔
    spriteCovers s (s.reg x).toNat (s.reg y).toNat n px py := by
  rw [s.drawSprite_reg_of_ne x y x n hx, s.drawSprite_reg_of_ne x y y n hy]
  exact Iff.rfl

/-- The second DRW inverts back what the first inverted. -/
theorem State.drawSprite_drawSprite_fb (hn : n ≤ 32) (hx : x ≠ 15) (hy : y ≠ 15) :
    ((s.drawSprite x y n).drawSprite x y n).fb = s.fb := by
  refine State.fb_eq_of_pixel_eq fun px py hpx hpy => ?_
  by_cases hcov : spriteCovers s (s.reg x).toNat (s.reg y).toNat n px py
  · rw [State.drawSprite_pixel_of_covers hn hpx hpy ((State.drawSprite_covers hx hy).2 hcov),
      State.drawSprite_pixel_of_covers hn hpx hpy hcov, Bool.not_not]
  · rw [State.drawSprite_pixel_of_not_covers hn hpx hpy
        (mt (State.drawSprite_covers hx hy).1 hcov),
      State.drawSprite_pixel_of_not_covers hn hpx hpy hcov]

/-- The second DRW collides exactly where the first set a clear pixel. -/
theorem State.drawSprite_drawSprite_flag_eq_one_iff (hn : n ≤ 32) (hx : x ≠ 15) (hy : y ≠ 15) :
    ((s.drawSprite x y n).drawSprite x y n).reg 15 = 1 ↔ ∃ px py, px < 64 ∧ py < 32 ∧
      spriteCovers s (s.reg x).toNat (s.reg y).toNat n px py ∧ s.pixel px py = false := by
  rw [State.drawSprite_flag_eq_one_iff hn]
  refine exists₂_congr fun px py => and_congr_right fun hpx => and_congr_right fun hpy => ?_
  rw [State.drawSprite_covers hx hy]
  refine and_congr_right fun hcov => ?_
  rw [State.drawSprite_pixel_of_covers hn hpx hpy hcov, Bool.not_eq_true']

/-- Settles O37: the second DRW covers the pixels the first covered, each of them inverted since, so
it inverts them back and collides exactly where a covered pixel was clear before both. -/
theorem drawingTwiceRestoresTheFramebuffer :
    Obligations.DrawingTwiceRestoresTheFramebuffer := by
  unfold Obligations.DrawingTwiceRestoresTheFramebuffer
  intro x y n s hn hx hy hrows
  have hn32 : n ≤ 32 := by omega
  have hbit := (s.drawSprite x y n).drawSprite_flag_eq_one_or_zero x y n
  have hone := State.drawSprite_drawSprite_flag_eq_one_iff (s := s) hn32 hx hy
  refine ⟨_, _, exec_drw_drawSprite s x y n hrows, exec_drw_drawSprite _ x y n hrows,
    State.drawSprite_drawSprite_fb hn32 hx hy, hbit, hone, fun hnone => ?_⟩
  refine hbit.resolve_left fun h1 => hnone ?_
  obtain ⟨px, py, hpx, hpy, hcov, _⟩ := hone.1 h1
  exact ⟨px, py, hpx, hpy, hcov⟩

/-! ## Who observes the framebuffer (R174) -/

/-- The state with another framebuffer. -/
def State.withFb (s : State) (f : Framebuffer) : State := { s with fb := f }

/-- A skip does not look at the framebuffer. -/
theorem State.skipIf_withFb (s : State) (f : Framebuffer) (c : Bool) :
    (s.withFb f).skipIf c = (s.skipIf c).withFb f := by
  rw [State.skipIf_eq, State.skipIf_eq]
  rfl

/-- The key wait does not look at the framebuffer. -/
theorem execLdVxK_withFb (x : Reg) (s : State) (f : Framebuffer) :
    ∃ t, execLdVxK x s = .next t ∧ execLdVxK x (s.withFb f) = .next (t.withFb f) := by
  have hkey : (s.withFb f).leastKey = s.leastKey := rfl
  unfold execLdVxK
  rw [hkey]
  cases s.leastKey with
  | none => exact ⟨_, rfl, rfl⟩
  | some k => exact ⟨_, rfl, rfl⟩

/-- An instruction that is neither CLS nor DRW commutes with a change of the framebuffer. -/
theorem exec_withFb (i : Instr) (s : State) (f : Framebuffer) (hcls : i ≠ .cls)
    (hdrw : ∀ x y n, i ≠ .drw x y n) :
    ∃ t, exec i s = .next t ∧ exec i (s.withFb f) = .next (t.withFb f) :=
  match i with
  | .cls => absurd rfl hcls
  | .drw x y n => absurd rfl (hdrw x y n)
  | .jp _ | .jpV0 _ | .ldImm _ _ | .addImm _ _ | .ldReg _ _ | .orReg _ _ | .andReg _ _
  | .xorReg _ _ | .addReg _ _ | .sub _ _ | .shr _ _ | .subn _ _ | .shl _ _ | .rnd _ _
  | .ldVxDT _ | .ldDTVx _ | .ldSTVx _ | .ldI _ | .addI _ | .ldF _ => ⟨_, rfl, rfl⟩
  | .seImm _ _ | .sneImm _ _ | .seReg _ _ | .sneReg _ _ =>
    ⟨_, rfl, congrArg _ (s.skipIf_withFb f _)⟩
  | .skp x =>
    if h : (s.reg x).toNat ≤ 15 then
      ⟨_, execSkp_ok s x h,
        (execSkp_ok (s.withFb f) x h).trans (congrArg _ (s.skipIf_withFb f _))⟩
    else ⟨_, execSkp_fault s x (not_le.1 h), execSkp_fault (s.withFb f) x (not_le.1 h)⟩
  | .sknp x =>
    if h : (s.reg x).toNat ≤ 15 then
      ⟨_, execSknp_ok s x h,
        (execSknp_ok (s.withFb f) x h).trans (congrArg _ (s.skipIf_withFb f _))⟩
    else ⟨_, execSknp_fault s x (not_le.1 h), execSknp_fault (s.withFb f) x (not_le.1 h)⟩
  | .ldVxK x => execLdVxK_withFb x s f
  | .call nnn =>
    if h : s.sp.val < 16 then ⟨_, execCall_ok s nnn h, execCall_ok (s.withFb f) nnn h⟩
    else
      have hfull : s.sp.val = 16 := by omega
      ⟨_, execCall_full s nnn hfull, execCall_full (s.withFb f) nnn hfull⟩
  | .ret =>
    if h : 0 < s.sp.val then ⟨_, execRet_ok s h, execRet_ok (s.withFb f) h⟩
    else
      have hempty : s.sp.val = 0 := Nat.eq_zero_of_not_pos h
      ⟨_, execRet_empty s hempty, execRet_empty (s.withFb f) hempty⟩
  | .ldB x =>
    if h : s.idx.toNat + 2 ≤ 0xFFF then ⟨_, execLdB_ok s x h, execLdB_ok (s.withFb f) x h⟩
    else ⟨_, execLdB_fault s x (not_le.1 h), execLdB_fault (s.withFb f) x (not_le.1 h)⟩
  | .storeRegs x =>
    if h : s.idx.toNat + x.val ≤ 0xFFF then
      ⟨_, execStoreRegs_ok s x h, execStoreRegs_ok (s.withFb f) x h⟩
    else
      ⟨_, execStoreRegs_fault s x (not_le.1 h), execStoreRegs_fault (s.withFb f) x (not_le.1 h)⟩
  | .loadRegs x =>
    if h : s.idx.toNat + x.val ≤ 0xFFF then
      ⟨_, execLoadRegs_ok s x h, execLoadRegs_ok (s.withFb f) x h⟩
    else
      ⟨_, execLoadRegs_fault s x (not_le.1 h), execLoadRegs_fault (s.withFb f) x (not_le.1 h)⟩

/-- The state without the framebuffer and VF, both put to 0. -/
def State.hideDrawing (s : State) : State := { s with fb := 0, v := s.v.set 15 0 }

/-- But for the framebuffer and VF, DRW sets the redraw flag and goes on. -/
theorem State.hideDrawing_drawSprite (s : State) (x y : Reg) (n : Nat) :
    (s.drawSprite x y n).hideDrawing = (s.hideDrawing.showFrame 0).advance := by
  have hv : ((s.drawSprite x y n).v).set 15 0 = s.v.set 15 0 := Vector.set_set ..
  unfold State.hideDrawing
  rw [hv]
  rfl

/-- What DRW does to everything but the framebuffer and VF does not depend on the framebuffer. -/
theorem exec_drw_withFb (x y : Reg) (n : Nat) (s : State) (f : Framebuffer) :
    ∃ t u, exec (.drw x y n) s = .next t ∧ exec (.drw x y n) (s.withFb f) = .next u ∧
      u.hideDrawing = t.hideDrawing := by
  by_cases h : n = 0 ∨ s.idx.toNat + n - 1 ≤ 0xFFF
  · refine ⟨_, _, exec_drw_drawSprite s x y n h, exec_drw_drawSprite (s.withFb f) x y n h, ?_⟩
    rw [State.hideDrawing_drawSprite, State.hideDrawing_drawSprite]
    rfl
  · have hn : 1 ≤ n := by omega
    have hout : s.idx.toNat + n - 1 > 0xFFF := by omega
    exact ⟨_, _, execDrw_fault s x y n hn hout, execDrw_fault (s.withFb f) x y n hn hout, rfl⟩

/-- Settles O16: CLS shows the clear frame whatever was shown, DRW is `exec_drw_withFb`, and every
other instruction is `exec_withFb`. -/
theorem framebufferIsObservedOnlyByDraw : Obligations.FramebufferIsObservedOnlyByDraw := by
  unfold Obligations.FramebufferIsObservedOnlyByDraw
  refine ⟨fun i s f hdrw => ?_, exec_drw_withFb⟩
  by_cases hcls : i = .cls
  · subst hcls
    exact ⟨_, rfl, rfl⟩
  · rw [if_neg hcls]
    exact exec_withFb i s f hcls hdrw

end Sys2Proof.Machine
end

section
/-! The timer moves: each copies one byte between a register and a timer and goes on to the next
instruction (44_keyboard_timers.md R183 to R185). -/

namespace Sys2Proof.Machine

variable (s : State)

/-- Writing DT and going on to the next instruction changes DT and the program counter only. -/
theorem State.frame_writeDT_advance (b : Byte) :
    Frame s (s.writeDT b).advance [] [.dt, .pc] := by
  constructor <;> simp

/-- Writing ST and going on to the next instruction changes ST and the program counter only. -/
theorem State.frame_writeST_advance (b : Byte) :
    Frame s (s.writeST b).advance [] [.st, .pc] := by
  constructor <;> simp

/-- Settles O40: LD Vx, DT is one register write of a byte's own value; the other two are one
write of a timer and `pc + 2`. -/
theorem timerMovesCopyTheByte : Obligations.TimerMovesCopyTheByte := by
  unfold Obligations.TimerMovesCopyTheByte
  intro x s
  exact ⟨exec_writes_one_register (exec_ldVxDT s x) (by simp),
    ⟨_, exec_ldDTVx s x, rfl, State.advance_pc_eq _, s.frame_writeDT_advance _⟩,
    ⟨_, exec_ldSTVx s x, rfl, State.advance_pc_eq _, s.frame_writeST_advance _⟩⟩

end Sys2Proof.Machine
end

section
/-! An illegal word stops the machine before any instruction is known (60_exceptions.md R201). -/

namespace Sys2Proof.Machine

variable {s : State}

/-- While no fault is recorded, one Step is one fetch-decode-execute cycle (10_state.md R42). -/
theorem step_of_fault_eq_none (h : s.fault = none) : step s = cycle s := by
  rw [step, h]

/-- A cycle whose fetched word is illegal raises the DecodeFault of that word. -/
theorem cycle_of_decode_error {w : Word} {e : DecodeError} (hfetch : s.fetchWord = .ok w)
    (hdecode : decode w = .error e) : cycle s = .next (s.raiseDecode w) := by
  simp only [cycle, hfetch, hdecode]

/-- A word with the value of two bytes, high byte first, is the word they make (20_memory.md R63). -/
theorem wordOfBytes_eq_of_toNat {w : Word} {hi lo : Byte}
    (h : w.toNat = hi.toNat * 256 + lo.toNat) : wordOfBytes hi lo = w := by
  rw [wordOfBytes, ← h, BitVec.ofNat_toNat, BitVec.setWidth_eq]

/-- The word at `pc` and `pc + 1`, given by its value, is the one a Step fetches. -/
theorem State.fetchWord_eq_of_toNat {w : Word} (hpc : s.pc.toNat ≤ 0xFFE)
    (hw : w.toNat = (s.mem.get s.pc.toNat).toNat * 256 + (s.mem.get (s.pc.toNat + 1)).toNat) :
    s.fetchWord = .ok w := by
  rw [s.fetchWord_ok hpc, wordOfBytes_eq_of_toNat hw]

/-- Settles O7: the word is fetched and the decoder answers no instruction, so the step is
`State.raiseDecode`, which sets the fault record alone. -/
theorem illegalWordRaisesDecodeFault : Obligations.IllegalWordRaisesDecodeFault := by
  unfold Obligations.IllegalWordRaisesDecodeFault
  intro s w e hfault hpc hw hdecode
  have hfetch : s.fetchWord = .ok w := State.fetchWord_eq_of_toNat hpc hw
  calc step s = cycle s := step_of_fault_eq_none hfault
    _ = .next (s.raiseDecode w) := cycle_of_decode_error hfetch hdecode
    _ = .next (haltedWith s ⟨.decodeFault, none, s.pc, some w, none⟩) := rfl

end Sys2Proof.Machine
end

section
/-! The timer controller's transition: enabled only while no fault is recorded, and then one count
of both timers (60_exceptions.md R215, 10_state.md R42). -/

namespace Sys2Proof.Machine

variable {s : State}

/-- A TimerTick of a running machine counts both timers down and puts out the tone bit. -/
theorem timerTick_of_fault_eq_none (h : s.fault = none) :
    timerTick s = .next (s.tickTimers, s.tone) := by
  rw [timerTick, h]

/-- A machine with a fault recorded has no TimerTick. -/
theorem timerTick_of_fault_ne_none (h : s.fault ≠ none) : timerTick s = .fault .halted := by
  obtain ⟨r, hr⟩ := Option.ne_none_iff_exists'.1 h
  rw [timerTick, hr]

/-- The tone bit is 1 exactly when ST is not 0 (R216). -/
theorem State.tone_eq_true_iff : s.tone = true ↔ s.st ≠ 0 :=
  decide_eq_true_iff

/-- Counting both timers down changes the two timers only. -/
theorem State.frame_tickTimers (s : State) : Frame s s.tickTimers [] [.dt, .st] := by
  constructor <;> simp

/-- Settles O41: on a running machine the tick is `State.tickTimers`, each timer one `countDown`,
with the tone bit; on a halted one it is the stop `halted`, which is no next state. -/
theorem timerTickCountsBothTimersDown : Obligations.TimerTickCountsBothTimersDown := by
  unfold Obligations.TimerTickCountsBothTimersDown
  intro s
  constructor
  · intro hrunning
    exact ⟨s.tickTimers, s.tone, timerTick_of_fault_eq_none hrunning, State.tone_eq_true_iff,
      countDown_toNat s.dt, countDown_toNat s.st, s.frame_tickTimers⟩
  · intro hhalted p hnext
    rw [timerTick_of_fault_ne_none hhalted] at hnext
    cases hnext

end Sys2Proof.Machine
end

section
/-! The decoder and the encoder against each other and against the table of illegal words
(30_encoding.md R95 to R99). -/

namespace Sys2Proof

/-! ## Decoding an encoded instruction -/

/-- Settles O1: the word is made of the family and the operands of its format, and the field readers
read each of them back. -/
theorem decodeOfEncodeReturnsInstruction : Obligations.DecodeOfEncodeReturnsInstruction := by
  unfold Obligations.DecodeOfEncodeReturnsInstruction
  intro i hwf
  cases i with
  | cls | ret => rfl
  | jp nnn | call nnn | ldI nnn | jpV0 nnn =>
    have hnnn : nnn < 4096 := of_decide_eq_true hwf
    simp [encode, decode, opField_wordA, nnnField_wordA, hnnn]
  | seImm | sneImm | ldImm | addImm | rnd =>
    simp [encode, decode, opField_wordXK, xField_wordXK, nnField_wordXK]
  | skp | sknp =>
    simp [encode, decode, opField_wordXK, xField_wordXK, nnField_wordXK, decodeFamilyE]
  | ldVxDT | ldVxK | ldDTVx | ldSTVx | addI | ldF | ldB | storeRegs | loadRegs =>
    simp [encode, decode, opField_wordXK, xField_wordXK, nnField_wordXK, decodeFamilyF]
  | seReg | sneReg =>
    simp [encode, decode, opField_wordXY, xField_wordXY, yField_wordXY]
  | ldReg | orReg | andReg | xorReg | addReg | sub | shr | subn | shl =>
    simp [encode, decode, opField_wordXY, xField_wordXY, yField_wordXY, nField_wordXY,
      decodeFamily8]
  | drw x y n =>
    have hn : n < 16 := of_decide_eq_true hwf
    simp [encode, decode, opField_wordXY, xField_wordXY, yField_wordXY, nField_wordXY, hn]

/-! ## Encoding a decoded instruction -/

theorem decodeFamily0_ok {nnn : Nat} {i : Instr} (h : decodeFamily0 nnn = .ok i) :
    i.wellFormed = true ∧ encode i = wordA 0x0 nnn := by
  unfold decodeFamily0 at h
  split at h <;> cases h <;> exact ⟨rfl, rfl⟩

theorem decodeFamily8_ok {x y : Reg} {n : Nat} {i : Instr} (h : decodeFamily8 x y n = .ok i) :
    i.wellFormed = true ∧ encode i = wordXY 0x8 x y n := by
  unfold decodeFamily8 at h
  split at h <;> cases h <;> exact ⟨rfl, rfl⟩

theorem decodeFamilyE_ok {x : Reg} {nn : Nat} {i : Instr} (h : decodeFamilyE x nn = .ok i) :
    i.wellFormed = true ∧ encode i = wordXK 0xE x (BitVec.ofNat 8 nn) := by
  unfold decodeFamilyE at h
  split at h <;> cases h <;> exact ⟨rfl, rfl⟩

theorem decodeFamilyF_ok {x : Reg} {nn : Nat} {i : Instr} (h : decodeFamilyF x nn = .ok i) :
    i.wellFormed = true ∧ encode i = wordXK 0xF x (BitVec.ofNat 8 nn) := by
  unfold decodeFamilyF at h
  split at h <;> cases h <;> exact ⟨rfl, rfl⟩

theorem nnnField_lt (w : Word) : nnnField w < 4096 := Nat.mod_lt _ (by decide)

theorem nField_lt (w : Word) : nField w < 16 := Nat.mod_lt _ (by decide)

section
variable {w : Word} {op : Nat} {f : Fin 16}

theorem wordA_of_opField (h : (opField w).val = op) : wordA op (nnnField w) = w :=
  h ▸ (word_eq_wordA w).symm

theorem wordXK_of_opField (h : (opField w).val = op) : wordXK op (xField w) (nnField w) = w :=
  h ▸ (word_eq_wordXK w).symm

theorem wordXY_of_opField (h : (opField w).val = op) :
    wordXY op (xField w) (yField w) (nField w) = w :=
  h ▸ (word_eq_wordXY w).symm

/-- Outside families 0x5 and 0x9 every bit of the word counts (R98). -/
theorem canonicalWord_eq_self (hop : opField w = f) (h : f ≠ 5 ∧ f ≠ 9) : canonicalWord w = w := by
  subst hop
  exact if_neg fun h' => h'.elim (fun e => h.1 (Fin.ext e)) fun e => h.2 (Fin.ext e)

/-- The mask of families 0x5 and 0x9 clears the low four bits. -/
theorem and_FFF0 (w : Word) : w &&& 0xFFF0#16 = BitVec.ofNat 16 (w.toNat / 16 * 16) := by
  have hshift : w &&& 0xFFF0#16 = (w >>> 4) <<< 4 := by
    ext k hk
    have hbit : ∀ j < 16, (0xFFF0#16).getLsbD j = decide (4 ≤ j) := by decide
    have := hbit k hk
    by_cases h4 : k < 4 <;> simp_all
  rw [hshift]
  apply BitVec.eq_of_toNat_eq
  simp [Nat.shiftRight_eq_div_pow, Nat.shiftLeft_eq]

/-- In families 0x5 and 0x9 the canonical word has n = 0 (R98). -/
theorem canonicalWord_eq_wordXY (hop : (opField w).val = op) (h : op = 5 ∨ op = 9) :
    canonicalWord w = wordXY op (xField w) (yField w) 0 := by
  have hfam : w.toNat / 4096 = op := hop
  rw [canonicalWord, if_pos (by rwa [hfam]), and_FFF0, wordXY]
  congr 1
  simp only [xField, yField]
  omega

end

/-- A word of formats XK and XS with its register field written last. -/
theorem wordXK_eq_ofNat (op : Nat) (x : Reg) (nn : Byte) :
    wordXK op x nn = BitVec.ofNat 16 (op * 4096 + nn.toNat + x.val * 256) :=
  congrArg _ (Nat.add_right_comm ..)

/-- What the decoder reads from a word, family by family (R96). -/
theorem wellFormed_and_encode_of_decode {w : Word} {i : Instr} (h : decode w = .ok i) :
    i.wellFormed = true ∧ encode i = canonicalWord w := by
  have hnn : BitVec.ofNat 8 (nnField w).toNat = nnField w := by simp
  match hop : opField w with
  | 0x5 | 0x9 =>
    simp only [decode, hop, Except.ok.injEq] at h
    subst h
    exact ⟨rfl, (canonicalWord_eq_wordXY (congrArg Fin.val hop) (by decide)).symm⟩
  | 0x0 =>
    simp only [decode, hop] at h
    rw [canonicalWord_eq_self hop (by decide), ← wordA_of_opField (congrArg Fin.val hop)]
    exact decodeFamily0_ok h
  | 0x8 =>
    simp only [decode, hop] at h
    rw [canonicalWord_eq_self hop (by decide), ← wordXY_of_opField (congrArg Fin.val hop)]
    exact decodeFamily8_ok h
  | 0xE =>
    simp only [decode, hop] at h
    rw [canonicalWord_eq_self hop (by decide), ← wordXK_of_opField (congrArg Fin.val hop), ← hnn]
    exact decodeFamilyE_ok h
  | 0xF =>
    simp only [decode, hop] at h
    rw [canonicalWord_eq_self hop (by decide), ← wordXK_of_opField (congrArg Fin.val hop), ← hnn]
    exact decodeFamilyF_ok h
  | 0x1 | 0x2 | 0xA | 0xB =>
    simp only [decode, hop, Except.ok.injEq] at h
    subst h
    rw [canonicalWord_eq_self hop (by decide)]
    exact ⟨decide_eq_true (nnnField_lt w), wordA_of_opField (congrArg Fin.val hop)⟩
  | 0x3 | 0x4 | 0x6 | 0x7 | 0xC =>
    simp only [decode, hop, Except.ok.injEq] at h
    subst h
    rw [canonicalWord_eq_self hop (by decide)]
    exact ⟨rfl, wordXK_of_opField (congrArg Fin.val hop)⟩
  | 0xD =>
    simp only [decode, hop, Except.ok.injEq] at h
    subst h
    rw [canonicalWord_eq_self hop (by decide)]
    exact ⟨decide_eq_true (nField_lt w), wordXY_of_opField (congrArg Fin.val hop)⟩
  | ⟨n + 16, hn⟩ => omega

/-- Settles O2: in the families decoded in one dispatch the operands are the word's own fields, in
the others `decodeFamily0_ok` to `decodeFamilyF_ok` name the word; families 0x5 and 0x9 alone drop
bits. -/
theorem encodeOfDecodeIsCanonicalWord : Obligations.EncodeOfDecodeIsCanonicalWord := by
  unfold Obligations.EncodeOfDecodeIsCanonicalWord
  exact fun _ _ => wellFormed_and_encode_of_decode

/-! ## Illegal words -/

theorem decodeFamily0_error_iff (nnn : Nat) :
    (∃ e, decodeFamily0 nnn = .error e) ↔ nnn ≠ 0x0E0 ∧ nnn ≠ 0x0EE := by
  unfold decodeFamily0
  split <;> simp_all

theorem decodeFamily8_error_iff (x y : Reg) {n : Nat} (hn : n < 16) :
    (∃ e, decodeFamily8 x y n = .error e) ↔ n ∈ [0x8, 0x9, 0xA, 0xB, 0xC, 0xD, 0xF] := by
  interval_cases n <;> simp [decodeFamily8]

theorem decodeFamilyE_error_iff (x : Reg) (nn : Nat) :
    (∃ e, decodeFamilyE x nn = .error e) ↔ nn ∉ [0x9E, 0xA1] := by
  unfold decodeFamilyE
  split <;> simp_all

theorem decodeFamilyF_error_iff (x : Reg) (nn : Nat) :
    (∃ e, decodeFamilyF x nn = .error e) ↔
      nn ∉ [0x07, 0x0A, 0x15, 0x18, 0x1E, 0x29, 0x33, 0x55, 0x65] := by
  unfold decodeFamilyF
  split <;> simp_all

theorem nnField_toNat (w : Word) : (nnField w).toNat = w.toNat % 256 := by simp [nnField]

/-- In family 0x0 a word is its low 12 bits (R91). -/
theorem eq_iff_nnnField_eq {w v : Word} (hw : w.toNat / 4096 = 0) (hv : v.toNat / 4096 = 0) :
    w = v ↔ nnnField w = nnnField v := by
  rw [← BitVec.toNat_inj, nnnField, nnnField]
  omega

/-- Settles O3: families 0x0, 0x8, 0xE and 0xF have the illegal words of their second dispatch, and
every word of the others is legal. -/
theorem illegalWordsAreThoseOfTheTable : Obligations.IllegalWordsAreThoseOfTheTable := by
  unfold Obligations.IllegalWordsAreThoseOfTheTable
  intro w
  have hfam : w.toNat / 4096 = (opField w).val := rfl
  match hop : opField w with
  | 0x0 =>
    rw [hop] at hfam
    have hE0 : w = 0x00E0 ↔ nnnField w = 0x0E0 := eq_iff_nnnField_eq hfam (by decide)
    have hEE : w = 0x00EE ↔ nnnField w = 0x0EE := eq_iff_nnnField_eq hfam (by decide)
    simp only [decode, hop, decodeFamily0_error_iff, ne_eq, ← hE0, ← hEE]
    simp [hfam]
  | 0x8 =>
    simp only [decode, hop, decodeFamily8_error_iff _ _ (nField_lt w)]
    simp [hfam, hop, nField]
  | 0xE =>
    simp only [decode, hop, decodeFamilyE_error_iff]
    simp [hfam, hop, nnField_toNat]
  | 0xF =>
    simp only [decode, hop, decodeFamilyF_error_iff]
    simp [hfam, hop, nnField_toNat]
  | 0x1 | 0x2 | 0x3 | 0x4 | 0x5 | 0x6 | 0x7 | 0x9 | 0xA | 0xB | 0xC | 0xD =>
    simp [decode, hfam, hop]
  | ⟨n + 16, hn⟩ => omega

/-- Settles O4: the decoder run on each of the eight words. -/
theorem wordsOfTheTableDecode : Obligations.WordsOfTheTableDecode := by
  unfold Obligations.WordsOfTheTableDecode
  decide

end Sys2Proof
end

section
/-! What an instruction can do, said once: where the table of 60_exceptions.md R209 says so it
records its fault and nothing else, and everywhere else it ends in one named update of the state. -/

namespace Sys2Proof.Machine

variable {i : Instr} {s t : State}

/-! ## The fault of an instruction (R206, R209) -/

/-- The sub-cause of the fault an instruction can raise (R206, D10); of no account for an instruction
that raises none. -/
def faultSub : Instr → Option Nat
  | .call _ => some 0
  | .skp _ | .sknp _ => none
  | _ => some 1

/-- The info of the fault an instruction can raise (R206, D10, D29); of no account for an instruction
that raises none. -/
def faultInfo (i : Instr) (s : State) : Option Nat :=
  match i with
  | .call _ => some 0
  | .ret => some 1
  | .skp x | .sknp x => some (s.reg x).toNat
  | _ => some (max s.idx.toNat 0x1000)

/-- The record an instruction leaves where it raises its fault. -/
def faultRecord (i : Instr) (s : State) : FaultRecord :=
  ⟨faultKindOf i, faultSub i, s.pc, some (encode i), faultInfo i s⟩

/-- Where the table of R209 says so an instruction sets its fault record and changes nothing else. -/
theorem exec_of_raisesFault (i : Instr) (s : State) (h : raisesFault i s) :
    exec i s = .next (haltedWith s (faultRecord i s)) := by
  cases i with
  | ret => exact execRet_empty s h
  | call nnn => exact execCall_full s nnn h
  | drw x y n => exact execDrw_fault s x y n h.1 h.2
  | ldB x => exact execLdB_fault s x h
  | storeRegs x => exact execStoreRegs_fault s x h
  | loadRegs x => exact execLoadRegs_fault s x h
  | skp x => exact execSkp_fault s x h
  | sknp x => exact execSknp_fault s x h
  | _ => exact h.elim

/-- The same with the recorded word written out. -/
theorem exec_of_raisesFault_of_encode {w : Word} (hw : encode i = w) (h : raisesFault i s) :
    exec i s = .next (haltedWith s ⟨faultKindOf i, faultSub i, s.pc, some w, faultInfo i s⟩) := by
  subst hw
  exact exec_of_raisesFault i s h

/-- The record of a well-formed instruction is one of R206's rows. -/
theorem isRow_faultRecord (hwf : i.wellFormed = true) (h : raisesFault i s) :
    (faultRecord i s).isRow := by
  have haddress : 0xFFF < max s.idx.toNat 0x1000 := by omega
  cases i with
  | ret => exact .inr ⟨rfl, rfl, rfl⟩
  | call nnn =>
    exact .inl ⟨rfl, rfl, _, nnn, rfl, decodeOfEncodeReturnsInstruction _ hwf⟩
  | drw | ldB | storeRegs | loadRegs => exact .inr ⟨rfl, ⟨_, rfl⟩, _, rfl, haddress⟩
  | skp x | sknp x => exact ⟨rfl, ⟨_, rfl⟩, _, rfl, h, (s.reg x).isLt⟩
  | _ => exact h.elim

/-! ## The next state where no fault is raised -/

/-- `Ends s i t`: the instruction `i` can end in `t` from `s` without a fault. Numbers, bytes and
frames written are left open; what matters to some invariant is kept as a hypothesis: the register
is the named destination, the flag is one the instruction writes, a jump of a well-formed
instruction is at most 0x10FE (10_state.md R26), a store stays in memory. -/
inductive Ends (s : State) : Instr → State → Prop
  | writeV {i : Instr} {x : Reg} (n : Nat) (hx : namesDestination i x = true) :
      Ends s i (s.writeV x n).advance
  | resultFlag {i : Instr} {x : Reg} (n f : Nat) (hx : namesDestination i x = true)
      (hf : writesFlag i = true) : Ends s i (s.writeResultFlag x n f)
  | rnd {x : Reg} {nn : Byte} (n : Nat) : Ends s (.rnd x nn) (s.draw.2.writeV x n).advance
  | skip {i : Instr} (c : Bool) : Ends s i (s.skipIf c)
  | jump {i : Instr} (n : Nat) (hn : i.wellFormed = true → n ≤ 0x10FE) : Ends s i (s.jumpTo n)
  | call {nnn : Nat} (h : s.sp.val < 16) : Ends s (.call nnn)
      ((s.withStack (s.stack.set s.sp.val (BitVec.ofNat 16 (s.pc.toNat + 2)))
        ⟨s.sp.val + 1, by omega⟩).jumpTo nnn)
  | ret (h : 0 < s.sp.val) : Ends s .ret
      ((s.withStack s.stack ⟨s.sp.val - 1, by omega⟩).jumpTo s.stack[s.sp.val - 1].toNat)
  | writeI {i : Instr} (n : Nat) : Ends s i (s.writeI n).advance
  | store {i : Instr} (bytes : List Byte) (h : s.idx.toNat + bytes.length ≤ 4096) :
      Ends s i (s.withMem (s.mem.setBlock s.idx.toNat bytes)).advance
  | load {x : Reg} (bytes : List Byte) (n : Nat) (h : bytes.length = x.val + 1) :
      Ends s (.loadRegs x) ((s.writeFirst bytes).writeI n).advance
  | writeDT {i : Instr} (b : Byte) : Ends s i (s.writeDT b).advance
  | writeST {i : Instr} (b : Byte) : Ends s i (s.writeST b).advance
  | cls : Ends s .cls (s.showFrame 0).advance
  | drw {x y : Reg} {n : Nat} (f : Framebuffer) (c : Nat) :
      Ends s (.drw x y n) ((s.showFrame f).writeV flagReg c).advance
  | wait {x : Reg} : Ends s (.ldVxK x) s

/-- A CALL that raises no fault has room on the stack. -/
theorem sp_lt_of_not_raisesFault {nnn : Nat} (h : ¬ raisesFault (.call nnn) s) : s.sp.val < 16 :=
  Nat.lt_of_le_of_ne (Nat.le_of_lt_succ s.sp.isLt) h

/-- A DRW that raises no fault has its rows in memory. -/
theorem rows_of_not_raisesFault {x y : Reg} {n : Nat} (h : ¬ raisesFault (.drw x y n) s) :
    n = 0 ∨ s.idx.toNat + n - 1 ≤ 0xFFF := by
  have hrows : ¬ (n ≥ 1 ∧ s.idx.toNat + n - 1 > 0xFFF) := h
  omega

/-- Everywhere else an instruction answers a next state it can end in. -/
theorem exec_ends (i : Instr) (s : State) (h : ¬ raisesFault i s) :
    ∃ t, exec i s = .next t ∧ Ends s i t :=
  match i with
  | .cls => ⟨_, rfl, .cls⟩
  | .ret =>
    have hpos : 0 < s.sp.val := Nat.pos_of_ne_zero h
    ⟨_, execRet_ok s hpos, .ret hpos⟩
  | .jp nnn => ⟨_, rfl, .jump nnn fun hwf => by have := of_decide_eq_true hwf; omega⟩
  | .call nnn =>
    have hlt := sp_lt_of_not_raisesFault h
    ⟨_, execCall_ok s nnn hlt, .call hlt⟩
  | .seImm _ _ | .sneImm _ _ | .seReg _ _ | .sneReg _ _ => ⟨_, rfl, .skip _⟩
  | .ldImm _ _ | .addImm _ _ | .ldReg _ _ | .orReg _ _ | .andReg _ _ | .xorReg _ _ | .ldVxDT _ =>
    ⟨_, rfl, .writeV _ (decide_eq_true rfl)⟩
  | .addReg _ _ | .sub _ _ | .shr _ _ | .subn _ _ | .shl _ _ =>
    ⟨_, rfl, .resultFlag _ _ (decide_eq_true rfl) rfl⟩
  | .ldI _ | .addI _ | .ldF _ => ⟨_, rfl, .writeI _⟩
  | .jpV0 nnn => ⟨_, rfl, .jump _ fun hwf => by
      have := of_decide_eq_true hwf
      have := (s.reg 0).isLt
      omega⟩
  | .rnd _ _ => ⟨_, rfl, .rnd _⟩
  | .drw x y n => ⟨_, execDrw_ok s x y n (rows_of_not_raisesFault h), .drw _ _⟩
  | .skp x => ⟨_, execSkp_ok s x (not_lt.1 h), .skip _⟩
  | .sknp x => ⟨_, execSknp_ok s x (not_lt.1 h), .skip _⟩
  | .ldVxK x =>
    match execLdVxK_cases s x with
    | .inl ⟨_, hwait⟩ => ⟨_, hwait, .wait⟩
    | .inr ⟨k, _, _, hkey⟩ => ⟨_, hkey, .writeV k (decide_eq_true rfl)⟩
  | .ldDTVx _ => ⟨_, rfl, .writeDT _⟩
  | .ldSTVx _ => ⟨_, rfl, .writeST _⟩
  | .ldB x =>
    have hrange : s.idx.toNat + 2 ≤ 0xFFF := not_lt.1 h
    ⟨_, execLdB_ok s x hrange, .store _ (by simp [bcdDigits]; omega)⟩
  | .storeRegs x =>
    have hrange : s.idx.toNat + x.val ≤ 0xFFF := not_lt.1 h
    ⟨_, execStoreRegs_ok s x hrange, .store _ (by rw [s.length_regsUpTo]; omega)⟩
  | .loadRegs x =>
    ⟨_, execLoadRegs_ok s x (not_lt.1 h), .load _ _ (by simp)⟩

/-- What an instruction that answered `t` did: its fault, or one of its ends. -/
theorem cases_of_exec (h : exec i s = .next t) :
    (raisesFault i s ∧ t = haltedWith s (faultRecord i s)) ∨ (¬ raisesFault i s ∧ Ends s i t) := by
  by_cases hraise : raisesFault i s
  · exact .inl ⟨hraise, Host.Outcome.next.inj (h.symm.trans (exec_of_raisesFault i s hraise))⟩
  · obtain ⟨t', ht', hends⟩ := exec_ends i s hraise
    obtain rfl : t' = t := Host.Outcome.next.inj (ht'.symm.trans h)
    exact .inr ⟨hraise, hends⟩

/-! ## What an end leaves unchanged -/

/-- An end keeps the fault record. -/
theorem Ends.fault_eq (h : Ends s i t) : t.fault = s.fault := by
  cases h with
  | rnd => rfl
  | skip c => simp [State.skipIf_eq]
  | resultFlag => simp [State.writeResultFlag]
  | _ => simp

/-- An end changes a register only as the named destination or as the flag. -/
theorem Ends.reg_eq (h : Ends s i t) {r : Reg} (hr : namesDestination i r = false)
    (hflag : r = 15 → writesFlag i = false) : t.reg r = s.reg r := by
  have hne : ∀ {x}, namesDestination i x = true → r ≠ x := by
    rintro x hx rfl
    simp [hr] at hx
  cases h with
  | writeV n hx => simp [State.reg_writeV, hne hx]
  | resultFlag n f hx hf =>
    exact State.writeResultFlag_other s _ r n f (hne hx) fun e => by simp [hflag e] at hf
  | rnd n => exact State.reg_writeV_of_ne s.draw.2 _ r n (hne (decide_eq_true rfl))
  | skip c => simp [State.skipIf_eq]
  | load bytes n hlen =>
    have hlt : bytes.length ≤ r.val := by have := of_decide_eq_false hr; omega
    simp [List.getElem?_eq_none hlt]
  | drw f c =>
    have hne15 : r ≠ flagReg := fun e => nomatch hflag e
    simp [State.reg_writeV, hne15]
  | _ => simp

/-- Settles O9: the two cases of every instruction are `exec_of_raisesFault` and `exec_ends`. -/
theorem instructionFaultsExactlyWhereTheTableSays :
    Obligations.InstructionFaultsExactlyWhereTheTableSays := by
  unfold Obligations.InstructionFaultsExactlyWhereTheTableSays
  intro i s hfault
  by_cases h : raisesFault i s
  · refine ⟨_, exec_of_raisesFault i s h, by simp [haltedWith, h], ?_⟩
    rintro r hr
    obtain rfl : faultRecord i s = r := Option.some.inj hr
    rfl
  · obtain ⟨t, ht, hends⟩ := exec_ends i s h
    have hnone : t.fault = none := hends.fault_eq.trans hfault
    exact ⟨t, ht, by simp [hnone, h], by simp [hnone]⟩

/-- Settles O15: a fault keeps every register, and an end that changes one names it or flags it. -/
theorem registersChangeOnlyAsDestinationOrFlag :
    Obligations.RegistersChangeOnlyAsDestinationOrFlag := by
  unfold Obligations.RegistersChangeOnlyAsDestinationOrFlag
  intro i s t r h hchange
  by_contra hnot
  obtain ⟨hdst, hflag⟩ := not_or.1 hnot
  rcases cases_of_exec h with ⟨_, rfl⟩ | ⟨_, hends⟩
  · exact hchange rfl
  · exact hchange (hends.reg_eq (by simpa using hdst) fun e => by simpa [e] using hflag)

/-! ## What an end keeps of the invariant -/

/-- An end keeps memory in canonical form. -/
theorem Ends.mem_wf (h : Ends s i t) (hwf : s.mem.wf = true) : t.mem.wf = true := by
  cases h with
  | store bytes hrange => exact Memory.wf_setBlock _ _ _ (.inr hrange) hwf
  | _ => simpa [State.skipIf_eq, State.writeResultFlag, State.draw] using hwf

/-- Where a word could be fetched, an end of a well-formed instruction keeps the bound of R26 on the
program counter. -/
theorem Ends.pc_le (h : Ends s i t) (hs : s.Inv) (hpc : s.pc.toNat ≤ 0xFFE)
    (hwf : i.wellFormed = true) : t.pc.toNat ≤ 0x10FE := by
  cases h with
  | jump n hn =>
    have := hn hwf
    simp only [State.jumpTo_pc, BitVec.toNat_ofNat]
    omega
  | call hsp =>
    have : _ < 4096 := of_decide_eq_true hwf
    simp only [State.jumpTo_pc, BitVec.toNat_ofNat]
    omega
  | ret hsp =>
    have : s.stack[s.sp.val - 1].toNat ≤ 0x1000 :=
      hs.returnBound ⟨s.sp.val - 1, by omega⟩ (Nat.sub_lt hsp (by decide))
    simp only [State.jumpTo_pc, BitVec.toNat_ofNat]
    omega
  | skip c =>
    simp only [State.skipIf_eq, State.jumpTo_pc, BitVec.toNat_ofNat]
    cases c <;> simp <;> omega
  | wait => omega
  | resultFlag n f hx hf =>
    simp only [State.writeResultFlag, State.advance_pc, State.writeV_pc, BitVec.toNat_ofNat]
    omega
  | _ =>
    simp [State.draw]
    omega

/-- An end keeps the bound of R26 on every stored return address. -/
theorem Ends.return_le (h : Ends s i t) (hs : s.Inv) (hpc : s.pc.toNat ≤ 0xFFE) (k : Fin 16) :
    k.val < t.sp.val → t.stack[k.val].toNat ≤ 0x1000 := by
  cases h with
  | call hsp =>
    intro hk
    simp only [State.jumpTo_sp, State.withStack_sp, State.jumpTo_stack,
      State.withStack_stack] at hk ⊢
    by_cases hnew : s.sp.val = k.val
    · simp [hnew]
      omega
    · simpa [Vector.getElem_set, hnew] using hs.returnBound k (by omega)
  | ret hsp =>
    intro hk
    exact hs.returnBound k (by simp at hk; omega)
  | _ => simpa [State.skipIf_eq, State.writeResultFlag, State.draw] using hs.returnBound k

/-- A next state that records a fault meets the invariant when its record is a row of R206. -/
theorem State.Inv.haltedWith {r : FaultRecord} (hs : s.Inv) (hpc : r.pc = s.pc) (hrow : r.isRow) :
    (haltedWith s r).Inv where
  memWf := hs.memWf
  pcBound := hs.pcBound
  returnBound := hs.returnBound
  faultRow := by
    rintro r' hr'
    obtain rfl : r = r' := Option.some.inj hr'
    exact ⟨hpc, hrow⟩

/-- A well-formed instruction executed by a machine that could fetch its word keeps the invariant. -/
theorem inv_of_exec (h : exec i s = .next t) (hs : s.Inv) (hpc : s.pc.toNat ≤ 0xFFE)
    (hwf : i.wellFormed = true) (hfault : s.fault = none) : t.Inv := by
  rcases cases_of_exec h with ⟨hraise, rfl⟩ | ⟨_, hends⟩
  · exact hs.haltedWith rfl (isRow_faultRecord hwf hraise)
  · have hnone : t.fault = none := hends.fault_eq.trans hfault
    exact ⟨hends.mem_wf hs.memWf, hends.pc_le hs hpc hwf, hends.return_le hs hpc,
      by simp [hnone]⟩

end Sys2Proof.Machine
end

section
/-! One Step, and every schedule of the three agents: what a Step can do, that its faults are
precise, the invariant, and the halted machine (10_state.md R40 to R43, 60_exceptions.md R200 to
R208). -/

namespace Sys2Proof.Machine

variable {i : Instr} {s t u : State}

/-! ## One Step -/

/-- A cycle whose fetch leaves memory raises the MemoryFault of the fetch. -/
theorem cycle_of_fetch_error {a : Nat} (hfetch : s.fetchWord = .error a) :
    cycle s = .next (s.raiseFetch a) := by
  rw [cycle, hfetch]

/-- A cycle that reads an instruction executes it. -/
theorem cycle_of_decode_ok {w : Word} (hfetch : s.fetchWord = .ok w) (hdecode : decode w = .ok i) :
    cycle s = exec i s := by
  simp only [cycle, hfetch, hdecode]

/-- Settles O5: the word of the two bytes is the one a Step fetches. -/
theorem stepRunsTheDecodedInstruction : Obligations.StepRunsTheDecodedInstruction := by
  unfold Obligations.StepRunsTheDecodedInstruction
  intro s i hfault hpc hdecode
  exact (step_of_fault_eq_none hfault).trans (cycle_of_decode_ok (s.fetchWord_ok hpc) hdecode)

/-- Settles O6: the fetch fails at the first of the two addresses that is out of range. -/
theorem fetchOutsideMemoryRaisesMemoryFault : Obligations.FetchOutsideMemoryRaisesMemoryFault := by
  unfold Obligations.FetchOutsideMemoryRaisesMemoryFault
  intro s hfault hpc
  exact (step_of_fault_eq_none hfault).trans (cycle_of_fetch_error (s.fetchWord_error hpc))

/-- A machine with a fault recorded has no Step (R42). -/
theorem step_of_fault_ne_none (h : s.fault ≠ none) : step s = .fault .halted := by
  obtain ⟨r, hr⟩ := Option.ne_none_iff_exists'.1 h
  rw [step, hr]

/-- What a Step that answered `t` did: no fault was recorded, and it raised the fault of its fetch or
of its word, or executed the instruction it read. -/
theorem cases_of_step (h : step s = .next t) : s.fault = none ∧
    ((s.pc.toNat > 0xFFE ∧ t = s.raiseFetch (max s.pc.toNat 0x1000)) ∨
    (∃ w e, s.fetchWord = .ok w ∧ decode w = .error e ∧ t = s.raiseDecode w) ∨
    ∃ w i, s.fetchWord = .ok w ∧ decode w = .ok i ∧ exec i s = .next t) := by
  have hfault : s.fault = none := by
    by_contra hne
    rw [step_of_fault_ne_none hne] at h
    cases h
  refine ⟨hfault, ?_⟩
  rw [step_of_fault_eq_none hfault] at h
  by_cases hpc : s.pc.toNat > 0xFFE
  · rw [cycle_of_fetch_error (s.fetchWord_error hpc)] at h
    exact .inl ⟨hpc, (Host.Outcome.next.inj h).symm⟩
  · have hfetch := s.fetchWord_ok (not_lt.1 hpc)
    generalize wordOfBytes (s.mem.get s.pc.toNat) (s.mem.get (s.pc.toNat + 1)) = w at hfetch
    match hdecode : decode w with
    | .error e =>
      rw [cycle_of_decode_error hfetch hdecode] at h
      exact .inr (.inl ⟨_, e, hfetch, hdecode, (Host.Outcome.next.inj h).symm⟩)
    | .ok i =>
      rw [cycle_of_decode_ok hfetch hdecode] at h
      exact .inr (.inr ⟨_, i, hfetch, hdecode, h⟩)

/-- An instruction that raises its fault has no ignored bits (R98, R209), so its own word is the one
it was read from. -/
theorem encode_eq_of_raisesFault {w : Word} (hdecode : decode w = .ok i) (h : raisesFault i s) :
    encode i = w := by
  rw [(wellFormed_and_encode_of_decode hdecode).2]
  by_cases h5 : opField w = 5
  · simp only [decode, h5, Except.ok.injEq] at hdecode
    subst hdecode
    exact h.elim
  · by_cases h9 : opField w = 9
    · simp only [decode, h9, Except.ok.injEq] at hdecode
      subst hdecode
      exact h.elim
    · exact canonicalWord_eq_self rfl ⟨h5, h9⟩

/-- Settles O8: the three faults of `cases_of_step` each set the fault record alone; an instruction
that faulted recorded its own word, which is the fetched one. -/
theorem faultingStepChangesOnlyTheFaultRecord :
    Obligations.FaultingStepChangesOnlyTheFaultRecord := by
  unfold Obligations.FaultingStepChangesOnlyTheFaultRecord
  intro s t hstep hfaulted
  obtain ⟨hnone, ⟨hpc, rfl⟩ | ⟨w, e, hfetch, _, rfl⟩ | ⟨w, i, hfetch, hdecode, hexec⟩⟩ :=
    cases_of_step hstep
  · refine ⟨_, rfl, rfl, fun w hfetch => ?_⟩
    rw [s.fetchWord_error hpc] at hfetch
    cases hfetch
  · refine ⟨_, rfl, rfl, fun w' hfetch' => ?_⟩
    rw [Except.ok.inj (hfetch.symm.trans hfetch')]
  · rcases cases_of_exec hexec with ⟨hraise, rfl⟩ | ⟨_, hends⟩
    · refine ⟨_, rfl, rfl, fun w' hfetch' => ?_⟩
      rw [← Except.ok.inj (hfetch.symm.trans hfetch')]
      exact congrArg some (encode_eq_of_raisesFault hdecode hraise)
    · exact absurd (hends.fault_eq.trans hnone) hfaulted

/-! ## The invariant -/

/-- Every Step keeps the invariant. -/
theorem inv_of_step (hs : s.Inv) (h : step s = .next t) : t.Inv := by
  obtain ⟨hnone, ⟨_, rfl⟩ | ⟨w, e, _, hdecode, rfl⟩ | ⟨w, i, hfetch, hdecode, hexec⟩⟩ :=
    cases_of_step h
  · exact hs.haltedWith rfl (.inl ⟨rfl, rfl, _, rfl, by omega⟩)
  · exact hs.haltedWith rfl ⟨rfl, rfl, w, e, rfl, hdecode⟩
  · exact inv_of_exec hexec hs (s.pc_le_of_fetchWord hfetch)
      (wellFormed_and_encode_of_decode hdecode).1 hnone

/-- Settles O11: the fault of a fetch or of a word is a row of R206, and an instruction read from a
word in memory keeps the invariant. -/
theorem stepKeepsTheMachineInvariant : Obligations.StepKeepsTheMachineInvariant := by
  unfold Obligations.StepKeepsTheMachineInvariant
  exact fun _ _ => inv_of_step

/-- The state right after Reset meets the invariant, whatever FONT is and whatever was drawn. -/
theorem inv_hostReset (font : Font) (s : State) : (hostReset font s).Inv where
  memWf := Memory.wf_ofFont font
  pcBound := (by decide : (0x200 : Word).toNat ≤ 0x10FE)
  returnBound := fun _ hk => absurd hk (Nat.not_lt_zero _)
  faultRow := fun _ hr => nomatch hr

/-- Settles O12: both are states after Reset, that of the default FONT being `State.reset`. -/
theorem resetMeetsTheMachineInvariant : Obligations.ResetMeetsTheMachineInvariant := by
  unfold Obligations.ResetMeetsTheMachineInvariant
  have hreset : ∀ font : Font, (State.resetWith font).Inv := fun font =>
    inv_hostReset font State.reset
  exact ⟨State.resetWith_default ▸ hreset defaultFont, hreset⟩

/-- A program that fits leaves memory canonical, and one that does not leaves a row of R206. -/
theorem inv_loadProgram (hs : s.Inv) (bytes : List Byte) : (loadProgram bytes s).Inv := by
  by_cases h : bytes.length ≤ 3584
  · have hwf := loadProgram_wf s bytes hs.memWf
    rw [loadProgram_ok s bytes h] at hwf ⊢
    exact ⟨hwf, hs.pcBound, hs.returnBound, hs.faultRow⟩
  · rw [loadProgram_fault s bytes (not_le.1 h)]
    exact hs.haltedWith rfl ⟨rfl, rfl, _, rfl, not_le.1 h⟩

/-! ## Schedules -/

section
variable {font : Font} {o : Output}

theorem step_of_transition (h : transition font .step s = .next (t, o)) : step s = .next t := by
  unfold transition at h
  cases hstep : step s with
  | next u =>
    simp only [hstep, Host.Outcome.next.injEq, Prod.mk.injEq] at h
    rw [h.1]
  | fault r => simp [hstep] at h
  | refused r => simp [hstep] at h

/-- A TimerTick that was performed was enabled. -/
theorem tickTimers_of_transition (h : transition font .timerTick s = .next (t, o)) :
    s.fault = none ∧ t = s.tickTimers := by
  by_cases hfault : s.fault = none
  · simp only [transition, timerTick_of_fault_eq_none hfault, Host.Outcome.next.injEq,
      Prod.mk.injEq] at h
    exact ⟨hfault, h.1.symm⟩
  · simp [transition, timerTick_of_fault_ne_none hfault] at h

/-- Every transition of every agent keeps the invariant. -/
theorem inv_of_transition {a : Transition} (hs : s.Inv) (h : transition font a s = .next (t, o)) :
    t.Inv := by
  cases a with
  | step => exact inv_of_step hs (step_of_transition h)
  | timerTick =>
    obtain ⟨_, rfl⟩ := tickTimers_of_transition h
    exact ⟨hs.memWf, hs.pcBound, hs.returnBound, hs.faultRow⟩
  | reset =>
    cases h
    exact inv_hostReset font s
  | loadProgram bytes =>
    cases h
    exact inv_loadProgram hs bytes
  | setKeys | ackRedraw =>
    cases h
    exact ⟨hs.memWf, hs.pcBound, hs.returnBound, hs.faultRow⟩
  | readFramebuffer | readRedraw | readFault =>
    cases h
    exact hs

end

/-- Settles O13: by induction on the schedule, each transition keeping the invariant. -/
theorem everyScheduleKeepsTheMachineInvariant :
    Obligations.EveryScheduleKeepsTheMachineInvariant := by
  unfold Obligations.EveryScheduleKeepsTheMachineInvariant
  intro font ts
  induction ts with
  | nil =>
    intro s t os hs h
    cases h
    exact hs
  | cons a ts ih =>
    intro s t os hs h
    obtain ⟨s', o, os', ha, hts, _⟩ := runSchedule_cons_next s h
    exact ih s' t os' (inv_of_transition hs ha) hts

/-! ## The halted machine (R42, D19) -/

theorem Frame.refl (s : State) (dst : List Reg) (parts : List Part) : Frame s s dst parts := by
  constructor <;> simp

theorem Frame.trans {dst : List Reg} {parts : List Part} (h : Frame s t dst parts)
    (h' : Frame t u dst parts) : Frame s u dst parts where
  regs r hr := (h'.regs r hr).trans (h.regs r hr)
  mem hp a := (h'.mem hp a).trans (h.mem hp a)
  idx hp := (h'.idx hp).trans (h.idx hp)
  pc hp := (h'.pc hp).trans (h.pc hp)
  stack hp := ⟨(h'.stack hp).1.trans (h.stack hp).1, (h'.stack hp).2.trans (h.stack hp).2⟩
  dt hp := (h'.dt hp).trans (h.dt hp)
  st hp := (h'.st hp).trans (h.st hp)
  keys hp := (h'.keys hp).trans (h.keys hp)
  fb hp := (h'.fb hp).trans (h.fb hp)
  redraw hp := (h'.redraw hp).trans (h.redraw hp)
  fault hp := (h'.fault hp).trans (h.fault hp)
  draws hp := (h'.draws hp).trans (h.draws hp)

/-- What the host's transitions other than Reset write. -/
def hostParts : List Part := [.mem, .keys, .redraw, .fault]

/-- LoadProgram writes memory or the fault record, and clears no fault. -/
theorem loadProgram_of_halted (bytes : List Byte) (h : s.fault ≠ none) :
    (loadProgram bytes s).fault ≠ none ∧ Frame s (loadProgram bytes s) [] hostParts := by
  by_cases hlen : bytes.length ≤ 3584
  · rw [loadProgram_ok s bytes hlen]
    exact ⟨h, by constructor <;> simp [hostParts]⟩
  · rw [loadProgram_fault s bytes (not_le.1 hlen)]
    exact ⟨nofun, by constructor <;> simp [hostParts, State.raiseLoad]⟩

/-- A transition that a halted machine performs and that is not Reset is one of the host's, and
leaves the machine halted. -/
theorem halted_of_transition {font : Font} {a : Transition} {o : Output} (hs : s.fault ≠ none)
    (hreset : a ≠ .reset) (h : transition font a s = .next (t, o)) :
    t.fault ≠ none ∧ a ≠ .step ∧ a ≠ .timerTick ∧ Frame s t [] hostParts := by
  cases a with
  | step =>
    have hstep := step_of_transition h
    rw [step_of_fault_ne_none hs] at hstep
    cases hstep
  | timerTick => exact absurd (tickTimers_of_transition h).1 hs
  | reset => exact absurd rfl hreset
  | loadProgram bytes =>
    cases h
    exact ⟨(loadProgram_of_halted bytes hs).1, nofun, nofun, (loadProgram_of_halted bytes hs).2⟩
  | setKeys | ackRedraw =>
    cases h
    exact ⟨hs, nofun, nofun, by constructor <;> simp [hostParts, setKeys, ackRedraw, State.reg]⟩
  | readFramebuffer | readRedraw | readFault =>
    cases h
    exact ⟨hs, nofun, nofun, Frame.refl s _ _⟩

/-- The same of a whole schedule. -/
theorem halted_of_runSchedule {font : Font} {ts : List Transition} {os : List Output}
    (hs : s.fault ≠ none) (hreset : .reset ∉ ts) (h : runSchedule font ts s = .next (t, os)) :
    t.fault ≠ none ∧ .step ∉ ts ∧ .timerTick ∉ ts ∧ Frame s t [] hostParts := by
  induction ts generalizing s os with
  | nil =>
    cases h
    exact ⟨hs, nofun, nofun, Frame.refl t _ _⟩
  | cons a ts ih =>
    obtain ⟨ha, hts⟩ := not_or.1 (mt List.mem_cons.2 hreset)
    obtain ⟨s', o, os', hfirst, hrest, _⟩ := runSchedule_cons_next s h
    obtain ⟨hs', hstep, htick, hframe⟩ := halted_of_transition hs (Ne.symm ha) hfirst
    obtain ⟨ht, hnostep, hnotick, hframe'⟩ := ih hs' hts hrest
    exact ⟨ht, List.not_mem_cons_of_ne_of_not_mem (Ne.symm hstep) hnostep,
      List.not_mem_cons_of_ne_of_not_mem (Ne.symm htick) hnotick, hframe.trans hframe'⟩

/-- Settles O10: a halted machine enables no Step and no TimerTick, and by induction on the schedule
the host's other transitions leave it halted and change nothing but `hostParts`. -/
theorem onlyResetLeavesTheHaltedState : Obligations.OnlyResetLeavesTheHaltedState := by
  unfold Obligations.OnlyResetLeavesTheHaltedState
  refine ⟨fun s hs => ⟨step_of_fault_ne_none hs, timerTick_of_fault_ne_none hs⟩, ?_⟩
  intro font ts s t os hs hreset h
  obtain ⟨ht, hstep, htick, hframe⟩ := halted_of_runSchedule hs hreset h
  obtain ⟨hstack, hsp⟩ := hframe.stack (by decide)
  exact ⟨ht, hstep, htick, fun r => hframe.regs r (by simp), hframe.pc (by decide),
    hframe.idx (by decide), hstack, hsp, hframe.dt (by decide), hframe.st (by decide),
    hframe.fb (by decide)⟩

end Sys2Proof.Machine
end

section
/-! ST and the redraw flag are written and never read by an instruction (10_state.md R31, R34,
R36). -/

namespace Sys2Proof.Machine

/-- The state with another sound timer and another redraw flag. -/
def State.withSound (s : State) (b : Byte) (d : Bool) : State := { s with st := b, redraw := d }

variable (s : State) (b : Byte) (d : Bool)

/-- Neither is a condition of a fault. -/
theorem raisesFault_withSound (i : Instr) : raisesFault i (s.withSound b d) = raisesFault i s := by
  cases i <;> rfl

/-- Neither is recorded with a fault. -/
theorem faultRecord_withSound (i : Instr) : faultRecord i (s.withSound b d) = faultRecord i s := by
  cases i <;> rfl

/-- A skip looks at neither. -/
theorem State.skipIf_withSound (c : Bool) :
    (s.withSound b d).skipIf c = (s.skipIf c).withSound b d := by
  rw [State.skipIf_eq, State.skipIf_eq]
  rfl

/-- `ReadsNoSound i s b d`: from `s` the instruction `i` does the same with ST = `b` and the redraw
flag `d`, but for these two. -/
def ReadsNoSound (i : Instr) (s : State) (b : Byte) (d : Bool) : Prop :=
  ∃ t u, exec i s = .next t ∧ exec i (s.withSound b d) = .next u ∧
    u.withSound 0 false = t.withSound 0 false

variable {s b d} in
theorem readsNoSound_of_skip {i : Instr} {c : Bool} (h : exec i s = .next (s.skipIf c))
    (h' : exec i (s.withSound b d) = .next ((s.withSound b d).skipIf c)) :
    ReadsNoSound i s b d :=
  ⟨_, _, h, h', by rw [State.skipIf_withSound]; rfl⟩

theorem readsNoSound_ldVxK (x : Reg) : ReadsNoSound (.ldVxK x) s b d := by
  have hkey : (s.withSound b d).leastKey = s.leastKey := rfl
  unfold ReadsNoSound
  simp only [exec_ldVxK, execLdVxK, hkey]
  cases s.leastKey with
  | none => exact ⟨_, _, rfl, rfl, rfl⟩
  | some k => exact ⟨_, _, rfl, rfl, rfl⟩

/-- An instruction that raises no fault reads neither. -/
theorem readsNoSound_of_not_raisesFault (i : Instr) (h : ¬ raisesFault i s) :
    ReadsNoSound i s b d :=
  match i with
  | .cls | .jp _ | .jpV0 _ | .ldImm _ _ | .addImm _ _ | .ldReg _ _ | .orReg _ _ | .andReg _ _
  | .xorReg _ _ | .addReg _ _ | .sub _ _ | .shr _ _ | .subn _ _ | .shl _ _ | .rnd _ _
  | .ldVxDT _ | .ldDTVx _ | .ldSTVx _ | .ldI _ | .addI _ | .ldF _ => ⟨_, _, rfl, rfl, rfl⟩
  | .seImm _ _ | .sneImm _ _ | .seReg _ _ | .sneReg _ _ => readsNoSound_of_skip rfl rfl
  | .skp x =>
    readsNoSound_of_skip (execSkp_ok s x (not_lt.1 h)) (execSkp_ok (s.withSound b d) x (not_lt.1 h))
  | .sknp x =>
    readsNoSound_of_skip (execSknp_ok s x (not_lt.1 h))
      (execSknp_ok (s.withSound b d) x (not_lt.1 h))
  | .ldVxK x => readsNoSound_ldVxK s b d x
  | .call nnn =>
    have hlt := sp_lt_of_not_raisesFault h
    ⟨_, _, execCall_ok s nnn hlt, execCall_ok (s.withSound b d) nnn hlt, rfl⟩
  | .ret =>
    have hpos : 0 < s.sp.val := Nat.pos_of_ne_zero h
    ⟨_, _, execRet_ok s hpos, execRet_ok (s.withSound b d) hpos, rfl⟩
  | .ldB x => ⟨_, _, execLdB_ok s x (not_lt.1 h), execLdB_ok (s.withSound b d) x (not_lt.1 h), rfl⟩
  | .storeRegs x =>
    ⟨_, _, execStoreRegs_ok s x (not_lt.1 h),
      execStoreRegs_ok (s.withSound b d) x (not_lt.1 h), rfl⟩
  | .loadRegs x =>
    ⟨_, _, execLoadRegs_ok s x (not_lt.1 h),
      execLoadRegs_ok (s.withSound b d) x (not_lt.1 h), rfl⟩
  | .drw x y n =>
    have hrows := rows_of_not_raisesFault h
    ⟨_, _, exec_drw_drawSprite s x y n hrows,
      exec_drw_drawSprite (s.withSound b d) x y n hrows, rfl⟩

/-- Settles O17: a fault and its record depend on neither, and where there is none no meaning looks
at them. -/
theorem soundTimerAndRedrawAreNeverRead : Obligations.SoundTimerAndRedrawAreNeverRead := by
  unfold Obligations.SoundTimerAndRedrawAreNeverRead
  intro i s b d
  by_cases h : raisesFault i s
  · refine ⟨_, _, exec_of_raisesFault i s h,
      exec_of_raisesFault i (s.withSound b d) (raisesFault_withSound s b d i ▸ h), ?_⟩
    rw [faultRecord_withSound]
    rfl
  · exact readsNoSound_of_not_raisesFault s b d i h

end Sys2Proof.Machine
end

section
/-! CALL and RET (40_control_transfer.md R120, R122). -/

namespace Sys2Proof.Machine

variable {s : State}

/-- The entry pushed is read back at the old depth and every other entry is as it was. -/
theorem State.getElem_stack_set (h : s.sp.val < 16) (w : Word) (k : Fin 16) :
    (s.stack.set s.sp.val w h)[k.val] = if k.val = s.sp.val then w else s.stack[k.val] := by
  rw [Vector.getElem_set]
  simp only [eq_comm]

/-- A change of the stack and a jump change nothing else. -/
theorem State.frame_withStack_jumpTo (s : State) (k : Vector Word 16) (d : Fin 17) (n : Nat) :
    Frame s ((s.withStack k d).jumpTo n) [] [.pc, .stack] := by
  constructor <;> simp

theorem ofNat_pc_add_two (s : State) : BitVec.ofNat 16 (s.pc.toNat + 2) = s.pc + 2 :=
  s.advance_pc_eq

/-- A word of the stack is jumped to as it is (R120). -/
theorem State.jumpTo_toNat_pc (s : State) (w : Word) : (s.jumpTo w.toNat).pc = w := by simp

theorem encode_call {nnn : Nat} (h : nnn < 4096) :
    encode (.call nnn) = BitVec.ofNat 16 (0x2000 + nnn) := by
  rw [encode, wordA, Nat.mod_eq_of_lt h]

/-- Settles O19: below depth 16 the push succeeds, and at depth 16 the fault is the table's. -/
theorem callPushesTheReturnAddress : Obligations.CallPushesTheReturnAddress := by
  unfold Obligations.CallPushesTheReturnAddress
  intro nnn s hnnn
  constructor
  · intro hsp
    refine ⟨_, execCall_ok s nnn hsp, State.jumpTo_pc_toNat _ (by omega), rfl, fun k => ?_,
      s.frame_withStack_jumpTo _ _ _⟩
    rw [State.jumpTo_stack, State.withStack_stack, State.getElem_stack_set, ofNat_pc_add_two]
  · exact exec_of_raisesFault_of_encode (i := .call nnn) (encode_call hnnn)

/-- Settles O20: above depth 0 the pop gives the entry on top, and at depth 0 the fault is the
table's. -/
theorem returnPopsTheReturnAddress : Obligations.ReturnPopsTheReturnAddress := by
  unfold Obligations.ReturnPopsTheReturnAddress
  intro s
  constructor
  · intro k hk
    have hpos : 0 < s.sp.val := by omega
    have htop : s.sp.val - 1 = k.val := by omega
    refine ⟨_, execRet_ok s hpos, ?_, htop, rfl, s.frame_withStack_jumpTo _ _ _⟩
    simp only [State.jumpTo_toNat_pc, htop]
  · exact exec_of_raisesFault (i := .ret) (s := s)

/-- Settles O21: RET pops the entry CALL pushed, and the depth goes up and down by one. -/
theorem callThenReturnComesBack : Obligations.CallThenReturnComesBack := by
  unfold Obligations.CallThenReturnComesBack
  intro nnn s hsp
  refine ⟨_, _, execCall_ok s nnn hsp,
    (exec_ret _).trans (execRet_ok _ (Nat.succ_pos s.sp.val)), ?_, rfl, fun k hk => ?_, ?_⟩
  · exact (State.jumpTo_toNat_pc _ _).trans
      ((Vector.getElem_set_self _).trans (ofNat_pc_add_two s))
  · exact (State.getElem_stack_set hsp _ k).trans (if_neg hk)
  · constructor <;> simp

end Sys2Proof.Machine
end

section
/-! The instructions that write a result and the flag (41_alu.md R146 to R151), and RND (R152). -/

namespace Sys2Proof.Machine

variable {s : State}

theorem State.frame_writeResultFlag (s : State) (x : Reg) (r f : Nat) :
    Frame s (s.writeResultFlag x r f) [x, 15] [.pc] := by
  constructor
  case regs =>
    intro q hq
    simp only [List.mem_cons, List.not_mem_nil, or_false, not_or] at hq
    exact s.writeResultFlag_other x q r f hq.1 hq.2
  all_goals simp [State.writeResultFlag]

/-- The template of R146: the result `a` in the destination, unless that is VF, and the flag `b`. -/
theorem exec_writes_result_and_flag {i : Instr} {x : Reg} {r f : Nat} {a b : Byte}
    (hexec : exec i s = .next (s.writeResultFlag x r f)) (ha : BitVec.ofNat 8 r = a)
    (hb : BitVec.ofNat 8 f = b) :
    ∃ t, exec i s = .next t ∧ (x ≠ 15 → t.reg x = a) ∧ t.reg 15 = b ∧ t.pc = s.pc + 2 ∧
      Frame s t [x, 15] [.pc] :=
  ⟨_, hexec, fun hx => (s.writeResultFlag_result x r f hx).trans ha,
    (s.writeResultFlag_flag x r f).trans hb, s.writeResultFlag_pc x r f,
    s.frame_writeResultFlag x r f⟩

theorem ofNat_carryFlag (a b : Byte) :
    BitVec.ofNat 8 (carryFlag a b) = if a.toNat + b.toNat > 255 then 1 else 0 := by
  unfold carryFlag
  split <;> rfl

theorem ofNat_notBorrowFlag (a b : Byte) :
    BitVec.ofNat 8 (notBorrowFlag a b) = if b ≤ a then 1 else 0 := by
  simp only [notBorrowFlag, BitVec.le_def]
  split <;> rfl

/-- The difference is taken modulo 256. -/
theorem ofNat_sub_toNat (a b : Byte) : BitVec.ofNat 8 (a.toNat + 256 - b.toNat) = a - b := by
  apply BitVec.eq_of_toNat_eq
  simp [BitVec.toNat_sub]
  omega

theorem ofNat_div_two (a : Byte) : BitVec.ofNat 8 (a.toNat / 2) = a >>> 1 := by
  apply BitVec.eq_of_toNat_eq
  simp [Nat.shiftRight_eq_div_pow]
  omega

theorem ofNat_mul_two (a : Byte) : BitVec.ofNat 8 (a.toNat * 2) = a <<< 1 := by
  apply BitVec.eq_of_toNat_eq
  simp [Nat.shiftLeft_eq]

theorem ofNat_lowBitFlag (a : Byte) : BitVec.ofNat 8 (lowBitFlag a) = a &&& 1#8 := by
  apply BitVec.eq_of_toNat_eq
  simp [lowBitFlag, Nat.and_one_is_mod]
  omega

theorem ofNat_highBitFlag (a : Byte) : BitVec.ofNat 8 (highBitFlag a) = a >>> 7 := by
  apply BitVec.eq_of_toNat_eq
  simp [highBitFlag, Nat.shiftRight_eq_div_pow]
  omega

/-- Settles O25: each of the three is the template of R146 on a sum or a difference modulo 256. -/
theorem addAndSubtractSetResultAndFlag : Obligations.AddAndSubtractSetResultAndFlag := by
  unfold Obligations.AddAndSubtractSetResultAndFlag
  intro x y s
  exact ⟨exec_writes_result_and_flag (exec_addReg s x y) (by simp [BitVec.ofNat_add])
      (ofNat_carryFlag _ _),
    exec_writes_result_and_flag (exec_sub s x y) (ofNat_sub_toNat _ _) (ofNat_notBorrowFlag _ _),
    exec_writes_result_and_flag (exec_subn s x y) (ofNat_sub_toNat _ _) (ofNat_notBorrowFlag _ _)⟩

/-- Settles O26: each of the two is the template of R146 on V[x] alone. -/
theorem shiftsSetResultAndShiftedOutBit : Obligations.ShiftsSetResultAndShiftedOutBit := by
  unfold Obligations.ShiftsSetResultAndShiftedOutBit
  intro x y s
  exact ⟨exec_writes_result_and_flag (exec_shr s x y) (ofNat_div_two _) (ofNat_lowBitFlag _),
    exec_writes_result_and_flag (exec_shl s x y) (ofNat_mul_two _) (ofNat_highBitFlag _),
    fun _ => ⟨rfl, rfl⟩⟩

/-- Drawing a byte moves the draw counter only, so RND is one register write beside it. -/
theorem State.frame_draw_writeV_advance (s : State) (x : Reg) (n : Nat) :
    Frame s (s.draw.2.writeV x n).advance [x] [.pc, .draws] := by
  constructor
  case regs => exact (s.draw.2.frame_writeV_advance x n).regs
  all_goals simp [State.draw]

/-- Settles O27: the write masks the drawn byte with nn, which leaves no bit that nn has clear. -/
theorem randomByteIsMasked : Obligations.RandomByteIsMasked := by
  unfold Obligations.RandomByteIsMasked
  intro x nn s
  have hreg : (s.draw.2.writeV x (s.draw.1.toNat &&& nn.toNat)).advance.reg x =
      Config.freeByte s.draws &&& nn := by
    simp [State.draw, BitVec.ofNat_and]
  refine ⟨_, exec_rnd s x nn, hreg, ?_, rfl, State.advance_pc_eq _,
    s.frame_draw_writeV_advance x _⟩
  rw [hreg, BitVec.and_assoc, BitVec.and_not_self]
  exact BitVec.and_zero

end Sys2Proof.Machine
end

section
/-! Arithmetic on the index register (42_index_memory.md R161, R162) and the keyboard instructions
(44_keyboard_timers.md R180 to R182). -/

namespace Sys2Proof.Machine

theorem glyphAddress_lt (d : Byte) : glyphAddress d < 65536 := by
  have := d.isLt
  simp only [glyphAddress, Config.fontBase, Config.glyphBytes]
  omega

/-- Settles O29: each is one `State.writeI` and `pc + 2`; the sum is reduced to 16 bits and no glyph
address needs to be. -/
theorem indexArithmeticKeepsSixteenBits : Obligations.IndexArithmeticKeepsSixteenBits := by
  unfold Obligations.IndexArithmeticKeepsSixteenBits
  intro x s
  have hsum : BitVec.ofNat 16 (s.idx.toNat + (s.reg x).toNat) =
      s.idx + (s.reg x).setWidth 16 := BitVec.eq_of_toNat_eq (by simp)
  exact ⟨⟨_, exec_addI s x, hsum, State.advance_pc_eq _, s.frame_writeI_advance _⟩,
    ⟨_, exec_ldF s x, s.writeI_idx_toNat (glyphAddress_lt _), State.advance_pc_eq _,
      s.frame_writeI_advance _⟩⟩

theorem encode_skp (x : Reg) : encode (.skp x) = BitVec.ofNat 16 (0xE09E + x.val * 256) :=
  wordXK_eq_ofNat 0xE x 0x9E

theorem encode_sknp (x : Reg) : encode (.sknp x) = BitVec.ofNat 16 (0xE0A1 + x.val * 256) :=
  wordXK_eq_ofNat 0xE x 0xA1

/-- Settles O38: both are skips on the level of key V[x], or its negation, when there is such a key,
and the table's fault when there is none. -/
theorem keySkipsTestTheKeyLevel : Obligations.KeySkipsTestTheKeyLevel := by
  unfold Obligations.KeySkipsTestTheKeyLevel
  intro x s
  refine ⟨fun h => ⟨⟨_, execSkp_ok s x h, s.frame_skipIf _, s.skipIf_pc _⟩,
    ⟨_, execSknp_ok s x h, s.frame_skipIf _, ?_⟩⟩,
    fun h => ⟨exec_of_raisesFault_of_encode (i := .skp x) (encode_skp x) h,
      exec_of_raisesFault_of_encode (i := .sknp x) (encode_sknp x) h⟩⟩
  rw [s.skipIf_pc, State.keyPressed]
  cases s.keys.getLsbD (s.reg x).toNat <;> rfl

/-- Settles O39: the scan finds no key or the least pressed one, whose index fits a byte. -/
theorem keyWaitStoresTheLeastPressedKey : Obligations.KeyWaitStoresTheLeastPressedKey := by
  unfold Obligations.KeyWaitStoresTheLeastPressedKey
  intro x s
  constructor
  · intro hnone
    rw [exec_ldVxK, execLdVxK, s.leastKey_eq_none hnone]
  · intro k hk hpressed hleast
    have hexec : exec (.ldVxK x) s = .next (s.writeV x k).advance := by
      rw [exec_ldVxK, execLdVxK, s.leastKey_eq_some hk hpressed hleast]
    refine ⟨_, hexec, ?_, State.advance_pc_eq _, s.frame_writeV_advance x k⟩
    simp
    omega

end Sys2Proof.Machine
end

section
/-! The word a Step fetches, by the bytes that make it (20_memory.md R63). -/

namespace Sys2Proof.Machine

theorem State.fetchWord_of_bytes {s : State} {a : Nat} {hi lo : Byte} (hpc : s.pc.toNat = a)
    (ha : a ≤ 0xFFE) (hhi : s.mem.get a = hi) (hlo : s.mem.get (a + 1) = lo) :
    s.fetchWord = .ok (wordOfBytes hi lo) := by
  subst hpc hhi hlo
  exact s.fetchWord_ok ha

end Sys2Proof.Machine
end

section
/-! Loads and stores through the index register (42_index_memory.md R163 to R166, 20_memory.md R66
to R73). -/

namespace Sys2Proof.Machine

variable {s : State}

/-- A block written to memory, and on to the next instruction: the end of every store. -/
def State.storeBlock (s : State) (bytes : List Byte) : State :=
  (s.withMem (s.mem.setBlock s.idx.toNat bytes)).advance

theorem State.frame_storeBlock (s : State) (bytes : List Byte) :
    Frame s (s.storeBlock bytes) [] [.mem, .pc] := by
  constructor <;> simp [State.storeBlock]

/-- A store writes its block only. -/
theorem State.sameMemOutside_storeBlock (s : State) (bytes : List Byte) :
    SameMemOutside s (s.storeBlock bytes) s.idx.toNat bytes.length :=
  fun _ => Memory.get_setBlock_outside _ _ _

/-- The block a store wrote is read back byte by byte (R68). -/
theorem State.get_storeBlock {bytes : List Byte} (hwf : s.mem.wf = true)
    (hrange : s.idx.toNat + bytes.length ≤ 4096) (k : Nat) (hk : k < bytes.length) :
    (s.storeBlock bytes).mem.get (s.idx.toNat + k) = bytes[k] :=
  Memory.get_setBlock_inside _ _ _ hrange hwf k hk

/-! ## LD B, Vx -/

theorem encode_ldB (x : Reg) : encode (.ldB x) = BitVec.ofNat 16 (0xF033 + x.val * 256) :=
  wordXK_eq_ofNat 0xF x 0x33

theorem toNat_of_eq_ofNat {b : Byte} {n : Nat} (h : b = BitVec.ofNat 8 n) (hn : n < 256) :
    b.toNat = n := by
  rw [h, BitVec.toNat_ofNat]
  exact Nat.mod_eq_of_lt hn

/-- Settles O30: the block stored is the three digits of `bcdDigits`, each of which fits a byte. -/
theorem decimalStoreWritesThreeDigits : Obligations.DecimalStoreWritesThreeDigits := by
  unfold Obligations.DecimalStoreWritesThreeDigits
  intro x s hwf
  constructor
  · intro hidx
    have hlen : (bcdDigits (s.reg x)).length = 3 := rfl
    have hget := State.get_storeBlock (bytes := bcdDigits (s.reg x)) hwf (by omega)
    have hbyte := (s.reg x).isLt
    exact ⟨_, (s.reg x).toNat / 100, (s.reg x).toNat / 10 % 10, (s.reg x).toNat % 10,
      execLdB_ok s x (by omega), toNat_of_eq_ofNat (hget 0 (by omega)) (by omega),
      toNat_of_eq_ofNat (hget 1 (by omega)) (by omega),
      toNat_of_eq_ofNat (hget 2 (by omega)) (by omega), by omega, by omega, by omega, by omega,
      s.sameMemOutside_storeBlock _, State.advance_pc_eq _, s.frame_storeBlock _⟩
  · intro hidx
    exact exec_of_raisesFault_of_encode (i := .ldB x) (encode_ldB x)
      (show s.idx.toNat + 2 > 0xFFF by omega)

/-! ## LD [I], Vx and LD Vx, [I] -/

theorem encode_storeRegs (x : Reg) :
    encode (.storeRegs x) = BitVec.ofNat 16 (0xF055 + x.val * 256) :=
  wordXK_eq_ofNat 0xF x 0x55

theorem encode_loadRegs (x : Reg) :
    encode (.loadRegs x) = BitVec.ofNat 16 (0xF065 + x.val * 256) :=
  wordXK_eq_ofNat 0xF x 0x65

/-- The state after LD [I], Vx of a block in memory. -/
def State.storeRegs (s : State) (x : Reg) : State := s.storeBlock (s.regsUpTo x)

theorem exec_storeRegs_ok (x : Reg) (h : s.idx.toNat + x.val ≤ 0xFFF) :
    exec (.storeRegs x) s = .next (s.storeRegs x) :=
  execStoreRegs_ok s x h

/-- Register k up to x stands at I + k after the store (R164). -/
theorem State.get_storeRegs {x : Reg} (hwf : s.mem.wf = true) (h : s.idx.toNat + x.val ≤ 0xFFF)
    (k : Reg) (hk : k.val ≤ x.val) : (s.storeRegs x).mem.get (s.idx.toNat + k.val) = s.reg k := by
  have hlen := s.length_regsUpTo x
  have hlt : k.val < (s.regsUpTo x).length := by omega
  exact (State.get_storeBlock hwf (by omega) k.val hlt).trans (s.getElem_regsUpTo x k hlt)

/-- Settles O31: the block stored is the registers up to x in order. -/
theorem blockStoreWritesRegistersAndKeepsIndex :
    Obligations.BlockStoreWritesRegistersAndKeepsIndex := by
  unfold Obligations.BlockStoreWritesRegistersAndKeepsIndex
  intro x s hwf
  refine ⟨fun h => ⟨_, exec_storeRegs_ok x h, State.get_storeRegs hwf h, ?_,
    State.advance_pc_eq _, s.frame_storeBlock _⟩,
    exec_of_raisesFault_of_encode (i := .storeRegs x) (encode_storeRegs x)⟩
  rw [← s.length_regsUpTo x]
  exact s.sameMemOutside_storeBlock _

/-- The state after LD Vx, [I] of a block in memory. -/
def State.loadRegs (s : State) (x : Reg) : State :=
  ((s.writeFirst ((List.range (x.val + 1)).map fun k => s.mem.get (s.idx.toNat + k))).writeI
    (s.idx.toNat + x.val + 1)).advance

theorem exec_loadRegs_ok (x : Reg) (h : s.idx.toNat + x.val ≤ 0xFFF) :
    exec (.loadRegs x) s = .next (s.loadRegs x) :=
  execLoadRegs_ok s x h

@[simp] theorem State.loadRegs_mem (s : State) (x : Reg) : (s.loadRegs x).mem = s.mem := by
  simp [State.loadRegs]

theorem State.loadRegs_pc (s : State) (x : Reg) : (s.loadRegs x).pc = s.pc + 2 := by
  rw [State.loadRegs, State.advance_pc_eq, State.writeI_pc, State.writeFirst_pc]

/-- The registers up to x are loaded and no other (R165). -/
theorem State.reg_loadRegs (s : State) (x k : Reg) : (s.loadRegs x).reg k =
    if k.val ≤ x.val then s.mem.get (s.idx.toNat + k.val) else s.reg k := by
  simp only [State.loadRegs, State.advance_reg, State.writeI_reg, State.reg_writeFirst]
  split
  next h => simp [List.getElem?_range (Nat.lt_succ_of_le h)]
  next h => simp [List.getElem?_eq_none, Nat.lt_of_not_le h]

/-- I stands after the block (R165). -/
theorem State.loadRegs_idx_toNat {x : Reg} (h : s.idx.toNat + x.val ≤ 0xFFF) :
    (s.loadRegs x).idx.toNat = s.idx.toNat + x.val + 1 := by
  rw [State.loadRegs, State.advance_idx]
  exact State.writeI_idx_toNat _ (by omega)

theorem State.frame_loadRegs (s : State) (x : Reg) : Frame s (s.loadRegs x)
    ((List.finRange 16).filter fun k => k.val ≤ x.val) [.idx, .pc] := by
  constructor
  case regs =>
    intro r hr
    rw [s.reg_loadRegs, if_neg (by simpa using hr)]
  all_goals simp [State.loadRegs]

/-- Settles O32: the block loaded is the bytes from I in order. -/
theorem blockLoadReadsRegistersAndAdvancesIndex :
    Obligations.BlockLoadReadsRegistersAndAdvancesIndex := by
  unfold Obligations.BlockLoadReadsRegistersAndAdvancesIndex
  intro x s
  exact ⟨fun h => ⟨_, exec_loadRegs_ok x h, s.reg_loadRegs x, State.loadRegs_idx_toNat h,
    s.loadRegs_pc x, s.frame_loadRegs x⟩,
    exec_of_raisesFault_of_encode (i := .loadRegs x) (encode_loadRegs x)⟩

/-- Settles O33: the store leaves the registers and I, so the load reads at the same I what each
register up to x held, and leaves the others. -/
theorem blockStoreThenLoadReadsBack : Obligations.BlockStoreThenLoadReadsBack := by
  unfold Obligations.BlockStoreThenLoadReadsBack
  intro x s hwf h
  have hidx : (s.storeRegs x).idx = s.idx := rfl
  have h' : (s.storeRegs x).idx.toNat + x.val ≤ 0xFFF := h
  refine ⟨_, _, exec_storeRegs_ok x h, exec_loadRegs_ok x h', fun r => ?_,
    State.loadRegs_idx_toNat h', State.loadRegs_mem _ _⟩
  rw [State.reg_loadRegs, hidx]
  split
  next hr => exact State.get_storeRegs hwf h r hr
  next => rfl

/-- Settles O34: the fetch after the store reads the bytes at I and I + 1, which hold V0 and V1. -/
theorem storeIsSeenByTheNextFetch : Obligations.StoreIsSeenByTheNextFetch := by
  unfold Obligations.StoreIsSeenByTheNextFetch
  intro x s hwf h hx hidx
  have hpc : (s.storeRegs x).pc = s.idx := (State.advance_pc_eq _).trans hidx.symm
  exact ⟨_, exec_storeRegs_ok x h, State.fetchWord_of_bytes (congrArg BitVec.toNat hpc) (by omega)
    (State.get_storeRegs hwf h 0 (Nat.zero_le _)) (State.get_storeRegs hwf h 1 hx)⟩

end Sys2Proof.Machine
end

section
/-! One DRW as a whole (43_display.md R171, R172). -/

namespace Sys2Proof.Machine

variable {s : State}

theorem State.frame_drawSprite (s : State) (x y : Reg) (n : Nat) :
    Frame s (s.drawSprite x y n) [15] [.fb, .redraw, .pc] := by
  constructor
  case regs => exact fun r hr => s.drawSprite_reg_of_ne x y r n (List.ne_of_not_mem_cons hr)
  all_goals simp [State.drawSprite]

theorem encode_drw (x y : Reg) {n : Nat} (h : n < 16) :
    encode (.drw x y n) = BitVec.ofNat 16 (0xD000 + x.val * 256 + y.val * 16 + n) := by
  rw [encode, wordXY, Nat.mod_eq_of_lt h]

/-- Settles O36: with its rows in memory DRW is `State.drawSprite`, whose pixels and flag are known,
and otherwise it raises the table's fault. -/
theorem drawInvertsCoveredPixelsAndReportsCollision :
    Obligations.DrawInvertsCoveredPixelsAndReportsCollision := by
  unfold Obligations.DrawInvertsCoveredPixelsAndReportsCollision
  intro x y n s hn
  refine ⟨fun hrows => ?_, exec_of_raisesFault_of_encode (i := .drw x y n) (encode_drw x y hn)⟩
  have hn32 : n ≤ 32 := by omega
  have hone := State.drawSprite_flag_eq_one_iff (s := s) (x := x) (y := y) hn32
  exact ⟨_, exec_drw_drawSprite s x y n hrows,
    fun px py hpx hpy => ⟨State.drawSprite_pixel_of_covers hn32 hpx hpy,
      State.drawSprite_pixel_of_not_covers hn32 hpx hpy⟩,
    hone.2, fun hnone => (s.drawSprite_flag_eq_one_or_zero x y n).resolve_left (mt hone.1 hnone),
    rfl, State.advance_pc_eq _, s.frame_drawSprite x y n⟩

end Sys2Proof.Machine
end

section
/-! The tones of a run of TimerTicks (60_exceptions.md R216, D27). -/

namespace Sys2Proof.Machine

/-- The outputs of n TimerTicks from ST = v: a tone in the first min(n, v) of them. -/
def tones (n v : Nat) : List Output :=
  List.replicate (min n v) (.tone true) ++ List.replicate (n - v) (.tone false)

/-- The first tick has a tone exactly when v is not 0, and the rest are those from v - 1. -/
theorem tones_succ (n v : Nat) :
    tones (n + 1) v = .tone (decide (v ≠ 0)) :: tones n (v - 1) := by
  cases v with
  | zero => simp [tones, List.replicate_succ]
  | succ v => simp [tones, List.replicate_succ]

/-- A transition and the schedule after it make the schedule that begins with it. -/
theorem runSchedule_cons_of_next {font : Font} {a : Transition} {ts : List Transition}
    {s t u : State} {o : Output} {os : List Output} (ha : transition font a s = .next (t, o))
    (hts : runSchedule font ts t = .next (u, os)) :
    runSchedule font (a :: ts) s = .next (u, o :: os) := by
  simp only [runSchedule, ha, hts]

theorem transition_timerTick {s : State} (font : Font) (h : s.fault = none) :
    transition font .timerTick s = .next (s.tickTimers, .tone s.tone) := by
  simp only [transition, timerTick_of_fault_eq_none h]

/-- The tone bit by the value of ST. -/
theorem State.tone_eq (s : State) : s.tone = decide (s.st.toNat ≠ 0) := by
  rw [State.tone, decide_eq_decide, ne_eq, ← BitVec.toNat_inj]
  rfl

/-- Settles O42: by induction on the number of ticks, each taking one from both timers. -/
theorem soundTimerGivesExactlyItsCountOfTones :
    Obligations.SoundTimerGivesExactlyItsCountOfTones := by
  unfold Obligations.SoundTimerGivesExactlyItsCountOfTones
  intro font n
  induction n with
  | zero => exact fun s _ => ⟨s, by simp [runSchedule], rfl, rfl⟩
  | succ n ih =>
    intro s hfault
    obtain ⟨t, hrun, hst, hdt⟩ := ih s.tickTimers hfault
    simp only [State.tickTimers_st, State.tickTimers_dt, countDown_toNat] at hrun hst hdt
    refine ⟨t, ?_, by omega, by omega⟩
    have htones := tones_succ n s.st.toNat
    rw [← s.tone_eq] at htones
    exact (runSchedule_cons_of_next (transition_timerTick font hfault) hrun).trans
      (congrArg (fun os => Host.Outcome.next (t, os)) htones.symm)

end Sys2Proof.Machine
end

section
/-! The host: LoadProgram, SetKeys, AckRedraw, the reads and Reset, and the first Step after them
(60_exceptions.md R218 to R223, 70_reset_and_hazards.md R240 to R245). -/

namespace Sys2Proof.Machine

/-- Settles O43: a program that fits is one block write at 0x200. -/
theorem loadProgramCopiesOrFaults : Obligations.LoadProgramCopiesOrFaults := by
  unfold Obligations.LoadProgramCopiesOrFaults
  intro font bytes s hwf
  constructor
  · intro hlen
    have hload : transition font (.loadProgram bytes) s =
        .next (s.withMem (s.mem.setBlock 0x200 bytes), .nothing) := by
      rw [transition, loadProgram_ok s bytes hlen]
    exact ⟨_, hload, Memory.get_setBlock_inside _ _ _ (by omega) hwf,
      fun _ => Memory.get_setBlock_outside _ _ _, by constructor <;> simp⟩
  · intro hlen
    rw [transition, loadProgram_fault s bytes hlen]
    rfl

/-- Settles O44: each transition is its one update or its read. -/
theorem hostTransitionsTouchOnlyTheirComponent :
    Obligations.HostTransitionsTouchOnlyTheirComponent := by
  unfold Obligations.HostTransitionsTouchOnlyTheirComponent
  intro font s vector
  exact ⟨⟨_, rfl, rfl, by constructor <;> simp [setKeys, State.reg]⟩,
    ⟨_, rfl, rfl, by constructor <;> simp [ackRedraw, State.reg]⟩, rfl, rfl, rfl⟩

/-- Settles O45: the state after Reset is the reset state with FONT in memory, and depends on the
state before it by the draws alone. -/
theorem resetReinitialisesEveryComponent : Obligations.ResetReinitialisesEveryComponent := by
  unfold Obligations.ResetReinitialisesEveryComponent
  intro font s
  have hreg : ∀ r, (hostReset font s).reg r = 0 := fun r => Vector.getElem_replicate r.isLt
  have hstack : ∀ k : Fin 16, (hostReset font s).stack[k.val] = 0 := fun k =>
    Vector.getElem_replicate k.isLt
  exact ⟨hostReset font s, rfl, Memory.get_ofFont font, Memory.get_ofFont_outside font, hreg, rfl,
    rfl, rfl, hstack, rfl, rfl, rfl, rfl, rfl, rfl, rfl⟩

/-- Nothing loaded, the two bytes at 0x200 are 0. -/
theorem fetchWord_resetWith (font : Font) : (State.resetWith font).fetchWord = .ok 0x0000 := by
  have hpc : (State.resetWith font).pc.toNat = 0x200 := rfl
  have hzero : wordOfBytes 0 0 = 0x0000 := rfl
  rw [← hzero]
  exact State.fetchWord_of_bytes hpc (by decide)
    (Memory.get_ofFont_outside font 0x200 (by decide))
    (Memory.get_ofFont_outside font 0x201 (by decide))

/-- Settles O46: the word 0x0000 is illegal. -/
theorem stepAfterResetHaltsOnClearedMemory : Obligations.StepAfterResetHaltsOnClearedMemory := by
  unfold Obligations.StepAfterResetHaltsOnClearedMemory
  refine ⟨State.resetWith_default, fun font => ?_⟩
  have hdecode : decode 0x0000 = .error .illegalFamily0 := rfl
  exact (step_of_fault_eq_none rfl).trans
    (cycle_of_decode_error (fetchWord_resetWith font) hdecode)

/-- After Reset and LoadProgram the next fetch reads the program's first two bytes (R241, R244). -/
theorem fetchWord_loadProgram_hostReset (font : Font) (s : State) (hi lo : Byte) (rest : List Byte)
    (h : rest.length ≤ 3582) :
    (loadProgram (hi :: lo :: rest) (hostReset font s)).fetchWord = .ok (wordOfBytes hi lo) := by
  have hlen : (hi :: lo :: rest).length = rest.length + 2 := rfl
  have hget := Memory.get_setBlock_inside (Memory.ofFont font) 0x200 (hi :: lo :: rest)
    (by omega) (Memory.wf_ofFont font)
  have hpc : (hostReset font s).pc.toNat = 0x200 := rfl
  rw [loadProgram_ok _ _ (by omega)]
  exact State.fetchWord_of_bytes hpc (by decide) (hget 0 (by omega)) (hget 1 (by omega))

theorem loadProgram_fault_eq {bytes : List Byte} (s : State) (h : bytes.length ≤ 3584) :
    (loadProgram bytes s).fault = s.fault := by
  rw [loadProgram_ok s bytes h, State.withMem_fault]

/-- Settles O47: a program that fits records no fault, and its first two bytes are the word
fetched. -/
theorem firstStepRunsTheLoadedProgram : Obligations.FirstStepRunsTheLoadedProgram := by
  unfold Obligations.FirstStepRunsTheLoadedProgram
  intro font s hi lo rest i hlen hdecode
  have hfault : (loadProgram (hi :: lo :: rest) (hostReset font s)).fault = none :=
    loadProgram_fault_eq _ (show rest.length + 2 ≤ 3584 by omega)
  exact (step_of_fault_eq_none hfault).trans
    (cycle_of_decode_ok (fetchWord_loadProgram_hostReset font s hi lo rest hlen) hdecode)

end Sys2Proof.Machine
end
